-- ==== Sys2Proof/Word.lean ====
section
/-! DEFINITION. The words of the hardware: 8-bit data and 16-bit bus addresses (00_scope.md R8). -/

namespace Sys2Proof

/-- A data byte, `u8` (00_scope.md R8). -/
abbrev Byte := BitVec 8

/-- A bus address, `u16` (00_scope.md R8). -/
abbrev Addr := BitVec 16

end Sys2Proof
end

