-- ==== Sys2Proof/Config.lean ====
section
/-! DEFINITION. What is fixed for one bus: the controller kinds, the RAM sizes, the cartridge header value, the
parameters the spec names (00_scope.md R5 to R12), the header queries with their answers, and the two values the spec
leaves free: the draw `open_bus` and the layout of the debug report. -/

namespace Sys2Proof

/-- The two controller kinds in scope (00_scope.md R2). -/
inductive Kind where
  | none
  | mbc1
deriving DecidableEq, Repr

/-- The external-RAM sizes 0, 0x800, 0x2000 and 0x8000 bytes (00_scope.md R7). -/
inductive RamSize where
  | absent
  | kib2
  | kib8
  | kib32
deriving DecidableEq, Repr

/-- A controller configuration: derived from the header or supplied by the host (40_header.md R84). -/
structure BusConfig where
  kind    : Kind
  ramSize : RamSize
  battery : Bool
deriving DecidableEq, Repr

/-- The color-support flag (40_header.md R71). -/
inductive ColorSupport where
  | undefined
  | backwardsCompatible
  | gbcOnly
  | invalid
deriving DecidableEq, Repr

/-- The Super-console feature flag (40_header.md R72). -/
inductive SuperConsole where
  | unsupported
  | supported
  | invalid
deriving DecidableEq, Repr

/-- The region code (40_header.md R73). -/
inductive RegionCode where
  | japan
  | nonJapan
  | invalid
deriving DecidableEq, Repr

/-- The licensee code: the modern pair in address order, or the legacy byte (40_header.md R78). -/
inductive Licensee where
  | modern (first second : Byte)
  | legacy (code : Byte)
deriving DecidableEq, Repr

/-- The CartridgeHeader value, fixed at construction (10_state.md R26; 40_header.md R67 to R78). -/
structure Header where
  title                  : List Byte
  manufacturer           : List Byte
  color                  : ColorSupport
  licensee               : Licensee
  superConsole           : SuperConsole
  cartridgeType          : Byte
  romSizeByte            : Byte
  ramSizeByte            : Byte
  region                 : RegionCode
  version                : Byte
  declaredHeaderChecksum : Byte
  computedHeaderChecksum : Byte
  declaredGlobalChecksum : BitVec 16
  computedGlobalChecksum : BitVec 16
  logoOk                 : Bool
deriving DecidableEq, Repr

/-- The header queries: every field of 40_header.md R68 to R78, the declared and computed checksums and the four
booleans (44_host_interface.md R130). -/
inductive HeaderQuery where
  | title
  | manufacturer
  | color
  | licensee
  | superConsole
  | cartridgeType
  | romSizeByte
  | ramSizeByte
  | region
  | version
  | declaredHeaderChecksum
  | computedHeaderChecksum
  | declaredGlobalChecksum
  | computedGlobalChecksum
  | headerChecksumOk
  | globalChecksumOk
  | logoOk
  | isRunnable
deriving DecidableEq, Repr

/-- The answer to a header query. -/
inductive HeaderAnswer where
  | bytes (bs : List Byte)
  | byte (b : Byte)
  | half (h : BitVec 16)
  | flag (b : Bool)
  | color (c : ColorSupport)
  | licensee (l : Licensee)
  | superConsole (s : SuperConsole)
  | region (r : RegionCode)
deriving DecidableEq, Repr

/-- How a check is rendered in the debug report: `OK` or `FAILED` (44_host_interface.md R135). -/
inductive CheckWord where
  | ok
  | failed
deriving DecidableEq, Repr

/-- The content of the debug report: every header field and the four checks (44_host_interface.md R135). -/
structure DebugReport where
  header         : Header
  logo           : CheckWord
  headerChecksum : CheckWord
  globalChecksum : CheckWord
  runnability    : CheckWord
deriving DecidableEq, Repr

/-- The default of the parameter LOGO_REF, in address order from offset 0x104 (00_scope.md R9). -/
def Config.logoRefDefault : List Byte :=
  [0xCE, 0xED, 0x66, 0x66, 0xCC, 0x0D, 0x00, 0x0B, 0x03, 0x73, 0x00, 0x83] ++
  [0x00, 0x0C, 0x00, 0x0D, 0x00, 0x08, 0x11, 0x1F, 0x88, 0x89, 0x00, 0x0E] ++
  [0xDC, 0xCC, 0x6E, 0xE6, 0xDD, 0xDD, 0xD9, 0x99, 0xBB, 0xBB, 0x67, 0x63] ++
  [0x6E, 0x0E, 0xEC, 0xCC, 0xDD, 0xDC, 0x99, 0x9F, 0xBB, 0xB9, 0x33, 0x3E]

/-- The draw `open_bus`: the byte that the n-th read of a RAM window with no RAM answers. FREE: nothing constrains
it, and two draws are independent (00_scope.md R11; 42_mbc_read.md R103; log 3). -/
opaque Config.openBus : Nat → Byte

/-- The answer is text: the UTF-8 encoding of characters (40_header.md R69; log 12). -/
def HeaderAnswer.isText (a : HeaderAnswer) : Prop :=
  ∃ cs : List Char, a = .bytes (cs.flatMap (fun c => (String.utf8EncodeChar c).map UInt8.toBitVec))

/-- A layout of the debug report: the order of its items, how it spells the value of a field, and the text in front of
the `n`-th item and after the last. Every item stands in the report, and the value of a field can be read from its
spelling, the title's among valid titles; the rest is open (44_host_interface.md R135; log 13). -/
structure DebugLayout where
  order    : List HeaderQuery
  complete : ∀ q, q ∈ order
  spell    : HeaderQuery → HeaderAnswer → String
  faithful : ∀ q a b, (q = .title → a.isText ∧ b.isText) → spell q a = spell q b → a = b
  gap      : DebugReport → Nat → String

/-- A number in strokes. -/
def DebugLayout.strokes (n : Nat) : List Char := List.replicate n 'I'

theorem DebugLayout.strokes_injective {a b : Nat} (h : strokes a = strokes b) : a = b := by
  simpa [strokes] using congrArg List.length h

/-- A byte as a character. -/
def DebugLayout.byteChar (b : Byte) : Char := Char.ofNat b.toNat

theorem DebugLayout.byteChar_injective {a b : Byte} (h : byteChar a = byteChar b) : a = b := by
  have h' := congrArg Char.toNat h
  unfold byteChar at h'
  rw [Char.toNat_ofNat, Char.toNat_ofNat, if_pos (Or.inl (by omega)), if_pos (Or.inl (by omega))] at h'
  exact BitVec.eq_of_toNat_eq h'

/-- One spelling of the answers, which shows that a layout exists. -/
def DebugLayout.plainSpelling : HeaderAnswer → List Char
  | .bytes bs => 'a' :: bs.map byteChar
  | .byte b => ['b', byteChar b]
  | .half h => 'c' :: strokes h.toNat
  | .flag false => ['d', '0']
  | .flag true => ['d', '1']
  | .color .undefined => ['e', '0']
  | .color .backwardsCompatible => ['e', '1']
  | .color .gbcOnly => ['e', '2']
  | .color .invalid => ['e', '3']
  | .licensee (.modern a b) => ['f', byteChar a, byteChar b]
  | .licensee (.legacy a) => ['f', byteChar a]
  | .superConsole .unsupported => ['g', '0']
  | .superConsole .supported => ['g', '1']
  | .superConsole .invalid => ['g', '2']
  | .region .japan => ['h', '0']
  | .region .nonJapan => ['h', '1']
  | .region .invalid => ['h', '2']

theorem DebugLayout.plainSpelling_injective {a b : HeaderAnswer} (h : plainSpelling a = plainSpelling b) : a = b := by
  unfold plainSpelling at h
  split at h <;> split at h <;> simp_all
  · exact (List.map_inj_right fun _ _ e => byteChar_injective e).1 h
  · exact byteChar_injective h
  · exact BitVec.eq_of_toNat_eq (strokes_injective h)
  · exact ⟨byteChar_injective h.1, byteChar_injective h.2⟩
  · exact byteChar_injective h

/-- A layout, so that a free one can be declared; nothing else uses it. -/
def DebugLayout.plain : DebugLayout where
  order := [.title, .manufacturer, .color, .licensee, .superConsole, .cartridgeType, .romSizeByte, .ramSizeByte, .region,
    .version, .declaredHeaderChecksum, .computedHeaderChecksum, .declaredGlobalChecksum, .computedGlobalChecksum,
    .headerChecksumOk, .globalChecksumOk, .logoOk, .isRunnable]
  complete := fun q => by cases q <;> decide
  spell := fun _ a => String.ofList (plainSpelling a)
  faithful := fun _ _ _ _ h => plainSpelling_injective (by simpa using congrArg String.toList h)
  gap := fun _ _ => ""

/-- A layout of which nothing is known but that it is one. -/
opaque Config.freeLayout [Inhabited DebugLayout] : DebugLayout

/-- The parameter DEBUG_LAYOUT. FREE beyond what every layout keeps (00_scope.md R12; 44_host_interface.md R135;
log 13). -/
def Config.debugLayout : DebugLayout := @Config.freeLayout ⟨DebugLayout.plain⟩

end Sys2Proof
end

