-- ==== Sys2Proof/Syntax.lean ====
section
/-! DEFINITION. The 22 operations of the block, one constructor per mnemonic of the opcode table (30_encoding.md
R57): every read carries its bus address A, every write its address A and its value D. -/

namespace Sys2Proof

/-- A transaction, named by the operation it performs (30_encoding.md R57). -/
inductive Instr where
  | rdRom0     (a : Addr)
  | rdRomxMbc1 (a : Addr)
  | rdRomxNone (a : Addr)
  | rdVram     (a : Addr)
  | rdXramMbc1 (a : Addr)
  | rdXramNone (a : Addr)
  | rdWram     (a : Addr)
  | rdEcho     (a : Addr)
  | rdHram     (a : Addr)
  | rdUnh      (a : Addr)
  | wrRamen    (a : Addr) (d : Byte)
  | wrRomlo    (a : Addr) (d : Byte)
  | wrBankhi   (a : Addr) (d : Byte)
  | wrMode     (a : Addr) (d : Byte)
  | wrCtrlNone (a : Addr) (d : Byte)
  | wrVram     (a : Addr) (d : Byte)
  | wrXramMbc1 (a : Addr) (d : Byte)
  | wrXramNone (a : Addr) (d : Byte)
  | wrWram     (a : Addr) (d : Byte)
  | wrEcho     (a : Addr) (d : Byte)
  | wrHram     (a : Addr) (d : Byte)
  | wrUnh      (a : Addr) (d : Byte)
deriving DecidableEq, Repr

/-- The operation names of the opcode map (30_encoding.md R57). -/
inductive Op where
  | rdRom0
  | rdRomxMbc1
  | rdRomxNone
  | rdVram
  | rdXramMbc1
  | rdXramNone
  | rdWram
  | rdEcho
  | rdHram
  | rdUnh
  | wrRamen
  | wrRomlo
  | wrBankhi
  | wrMode
  | wrCtrlNone
  | wrVram
  | wrXramMbc1
  | wrXramNone
  | wrWram
  | wrEcho
  | wrHram
  | wrUnh
deriving DecidableEq, Repr

/-- The operation an instruction performs. -/
def Instr.op : Instr → Op
  | .rdRom0 _       => .rdRom0
  | .rdRomxMbc1 _   => .rdRomxMbc1
  | .rdRomxNone _   => .rdRomxNone
  | .rdVram _       => .rdVram
  | .rdXramMbc1 _   => .rdXramMbc1
  | .rdXramNone _   => .rdXramNone
  | .rdWram _       => .rdWram
  | .rdEcho _       => .rdEcho
  | .rdHram _       => .rdHram
  | .rdUnh _        => .rdUnh
  | .wrRamen _ _    => .wrRamen
  | .wrRomlo _ _    => .wrRomlo
  | .wrBankhi _ _   => .wrBankhi
  | .wrMode _ _     => .wrMode
  | .wrCtrlNone _ _ => .wrCtrlNone
  | .wrVram _ _     => .wrVram
  | .wrXramMbc1 _ _ => .wrXramMbc1
  | .wrXramNone _ _ => .wrXramNone
  | .wrWram _ _     => .wrWram
  | .wrEcho _ _     => .wrEcho
  | .wrHram _ _     => .wrHram
  | .wrUnh _ _      => .wrUnh

/-- The bus address of a transaction: its effective address (30_encoding.md R54). -/
def Instr.addr : Instr → Addr
  | .rdRom0 a | .rdRomxMbc1 a | .rdRomxNone a | .rdVram a | .rdXramMbc1 a => a
  | .rdXramNone a | .rdWram a | .rdEcho a | .rdHram a | .rdUnh a => a
  | .wrRamen a _ | .wrRomlo a _ | .wrBankhi a _ | .wrMode a _ | .wrCtrlNone a _ | .wrVram a _ => a
  | .wrXramMbc1 a _ | .wrXramNone a _ | .wrWram a _ | .wrEcho a _ | .wrHram a _ | .wrUnh a _ => a

/-- The value a write carries; a read carries none (30_encoding.md R52, R55). -/
def Instr.value? : Instr → Option Byte
  | .rdRom0 _ | .rdRomxMbc1 _ | .rdRomxNone _ | .rdVram _ | .rdXramMbc1 _ => none
  | .rdXramNone _ | .rdWram _ | .rdEcho _ | .rdHram _ | .rdUnh _ => none
  | .wrRamen _ d | .wrRomlo _ d | .wrBankhi _ d | .wrMode _ d | .wrCtrlNone _ d | .wrVram _ d => some d
  | .wrXramMbc1 _ d | .wrXramNone _ d | .wrWram _ d | .wrEcho _ d | .wrHram _ d | .wrUnh _ d => some d

/-- Why a word spells no transaction (30_encoding.md R53): a bit above bit 24 is set, or a read word has `D != 0`. -/
inductive InvalidWord where
  | bitsAboveWord
  | readWithValue
deriving DecidableEq, Repr

end Sys2Proof
end

