-- ==== Sys2Proof/WellFormed.lean ====
section
/-! DEFINITION. Which instructions a bus of a given kind has: the address lies in the operation's range and the
operation belongs to the kind (30_encoding.md R57, R58). -/

namespace Sys2Proof

/-- `lo <= a <= hi`, unsigned. -/
def Addr.within (a lo hi : Addr) : Bool := decide (lo ≤ a) && decide (a ≤ hi)

/-- The echo range 0xE000 to 0xFDFF (20_memory.md R43). -/
def Addr.isEcho (a : Addr) : Bool := Addr.within a 0xE000 0xFDFF

/-- The unhandled ranges 0xFE00 to 0xFF7F and 0xFFFF (20_memory.md R43). -/
def Addr.isUnhandled (a : Addr) : Bool := Addr.within a 0xFE00 0xFF7F || decide (a = 0xFFFF)

/-- The address of the instruction lies in its operation's range (30_encoding.md R57). -/
def Instr.inRange : Instr → Bool
  | .rdRom0 a       => Addr.within a 0x0000 0x3FFF
  | .rdRomxMbc1 a   => Addr.within a 0x4000 0x7FFF
  | .rdRomxNone a   => Addr.within a 0x4000 0x7FFF
  | .rdVram a       => Addr.within a 0x8000 0x9FFF
  | .rdXramMbc1 a   => Addr.within a 0xA000 0xBFFF
  | .rdXramNone a   => Addr.within a 0xA000 0xBFFF
  | .rdWram a       => Addr.within a 0xC000 0xDFFF
  | .rdEcho a       => Addr.isEcho a
  | .rdHram a       => Addr.within a 0xFF80 0xFFFE
  | .rdUnh a        => Addr.isUnhandled a
  | .wrRamen a _    => Addr.within a 0x0000 0x1FFF
  | .wrRomlo a _    => Addr.within a 0x2000 0x3FFF
  | .wrBankhi a _   => Addr.within a 0x4000 0x5FFF
  | .wrMode a _     => Addr.within a 0x6000 0x7FFF
  | .wrCtrlNone a _ => Addr.within a 0x0000 0x7FFF
  | .wrVram a _     => Addr.within a 0x8000 0x9FFF
  | .wrXramMbc1 a _ => Addr.within a 0xA000 0xBFFF
  | .wrXramNone a _ => Addr.within a 0xA000 0xBFFF
  | .wrWram a _     => Addr.within a 0xC000 0xDFFF
  | .wrEcho a _     => Addr.isEcho a
  | .wrHram a _     => Addr.within a 0xFF80 0xFFFE
  | .wrUnh a _      => Addr.isUnhandled a

/-- The kind an operation belongs to; `none` for an operation of every kind (30_encoding.md R57, column "kind"). -/
def Op.kind? : Op → Option Kind
  | .rdRomxMbc1 | .rdXramMbc1 | .wrRamen | .wrRomlo | .wrBankhi | .wrMode | .wrXramMbc1 => some .mbc1
  | .rdRomxNone | .rdXramNone | .wrCtrlNone | .wrXramNone => some .none
  | .rdRom0 | .rdVram | .rdWram | .rdEcho | .rdHram | .rdUnh => none
  | .wrVram | .wrWram | .wrEcho | .wrHram | .wrUnh => none

/-- A bus of kind `k` has the operation. -/
def Op.ofKind (k : Kind) (o : Op) : Bool := decide (o.kind? = none) || decide (o.kind? = some k)

/-- A well-formed instruction of a bus of kind `k`. -/
def Instr.wellFormed (k : Kind) (i : Instr) : Bool := i.op.ofKind k && i.inRange

end Sys2Proof
end

