-- ==== Sys2Proof/Decode.lean ====
section
/-! DEFINITION. The transaction word: its fields, the decoder (total on every word, rejecting by name), the encoder
and the assembler's two words (30_encoding.md R52, R53, R57, R61, R63), and the opcode table with its patterns. -/

namespace Sys2Proof

/-- Bit 24, `W`, of a word (30_encoding.md R52). -/
def wordIsWrite (word : Nat) : Bool := decide (word / 2 ^ 24 % 2 = 1)

/-- Bits 23:8, the bus address `A` (30_encoding.md R52, R54). -/
def wordAddr (word : Nat) : Addr := BitVec.ofNat 16 (word / 2 ^ 8)

/-- Bits 7:0, the write value `D` (30_encoding.md R52, R55). -/
def wordValue (word : Nat) : Byte := BitVec.ofNat 8 word

/-- The MBC's reads by kind: the high ROM window (42_mbc_read.md R100, R101). -/
def routeRomx (k : Kind) (a : Addr) : Instr :=
  match k with
  | .mbc1 => .rdRomxMbc1 a
  | .none => .rdRomxNone a

/-- The MBC's reads by kind: the RAM window (42_mbc_read.md R103, R104). -/
def routeReadXram (k : Kind) (a : Addr) : Instr :=
  match k with
  | .mbc1 => .rdXramMbc1 a
  | .none => .rdXramNone a

/-- Read dispatch: the operation of `read(A)`, for every address (43_bus_router.md R111). -/
def routeRead (k : Kind) (a : Addr) : Instr :=
  if a < 0x4000 then .rdRom0 a
  else if a < 0x8000 then routeRomx k a
  else if a < 0xA000 then .rdVram a
  else if a < 0xC000 then routeReadXram k a
  else if a < 0xE000 then .rdWram a
  else if a < 0xFE00 then .rdEcho a
  else if 0xFF80 ≤ a ∧ a ≤ 0xFFFE then .rdHram a
  else .rdUnh a

/-- The MBC's control writes, 0x0000 to 0x7FFF, by kind (41_mbc_write.md R87). -/
def routeControl (k : Kind) (a : Addr) (d : Byte) : Instr :=
  match k with
  | .mbc1 =>
    if a < 0x2000 then .wrRamen a d
    else if a < 0x4000 then .wrRomlo a d
    else if a < 0x6000 then .wrBankhi a d
    else .wrMode a d
  | .none => .wrCtrlNone a d

/-- The MBC's RAM-window writes by kind (41_mbc_write.md R87). -/
def routeWriteXram (k : Kind) (a : Addr) (d : Byte) : Instr :=
  match k with
  | .mbc1 => .wrXramMbc1 a d
  | .none => .wrXramNone a d

/-- Write dispatch: the operation of `write(A, D)`, for every address and value (43_bus_router.md R112). -/
def routeWrite (k : Kind) (a : Addr) (d : Byte) : Instr :=
  if a < 0x8000 then routeControl k a d
  else if a < 0xA000 then .wrVram a d
  else if a < 0xC000 then routeWriteXram k a d
  else if a < 0xE000 then .wrWram a d
  else if a < 0xFE00 then .wrEcho a d
  else if 0xFF80 ≤ a ∧ a ≤ 0xFFFE then .wrHram a d
  else .wrUnh a d

/-- The decoder: every word is Invalid, by name, or exactly one operation of the configured kind (30_encoding.md
R53, R63). -/
def decode (k : Kind) (word : Nat) : Except InvalidWord Instr :=
  if 2 ^ 25 ≤ word then .error .bitsAboveWord
  else if wordIsWrite word then .ok (routeWrite k (wordAddr word) (wordValue word))
  else if wordValue word = 0 then .ok (routeRead k (wordAddr word))
  else .error .readWithValue

/-- The word of `read(a)`: `addr << 8` (30_encoding.md R52, R61). -/
def readWord (a : Addr) : Nat := a.toNat * 2 ^ 8

/-- The word of `write(a, d)`: `(1 << 24) | (addr << 8) | value` (30_encoding.md R52, R61). -/
def writeWord (a : Addr) (d : Byte) : Nat := 2 ^ 24 + a.toNat * 2 ^ 8 + d.toNat

/-- The encoder: the word of an instruction (30_encoding.md R52). -/
def encode (i : Instr) : Nat :=
  match i.value? with
  | none => readWord i.addr
  | some d => writeWord i.addr d

/-- A row of the opcode table: the word has the row's pattern where the mask has ones, and the bus the row's kind
(30_encoding.md R57; opcode_table.json). -/
structure OpcodeRow where
  op      : Op
  pattern : Nat
  mask    : Nat
  kind?   : Option Kind
deriving DecidableEq, Repr

/-- A word and a kind match a row. -/
def OpcodeRow.covers (r : OpcodeRow) (k : Kind) (word : Nat) : Bool :=
  decide (word &&& r.mask = r.pattern) && (decide (r.kind? = none) || decide (r.kind? = some k))

/-- The opcode table, row for row (opcode_table.json; 30_encoding.md R57). The decoder does not use it: that the two
agree is a statement about the model. -/
def opcodeTable : List OpcodeRow :=
  [⟨.rdRom0, 0x0000000, 0x1C000FF, none⟩,
   ⟨.rdRomxMbc1, 0x0400000, 0x1C000FF, some .mbc1⟩,
   ⟨.rdRomxNone, 0x0400000, 0x1C000FF, some .none⟩,
   ⟨.rdVram, 0x0800000, 0x1E000FF, none⟩,
   ⟨.rdXramMbc1, 0x0A00000, 0x1E000FF, some .mbc1⟩,
   ⟨.rdXramNone, 0x0A00000, 0x1E000FF, some .none⟩,
   ⟨.rdWram, 0x0C00000, 0x1E000FF, none⟩,
   ⟨.rdEcho, 0x0E00000, 0x1F000FF, none⟩,
   ⟨.rdEcho, 0x0F00000, 0x1F800FF, none⟩,
   ⟨.rdEcho, 0x0F80000, 0x1FC00FF, none⟩,
   ⟨.rdEcho, 0x0FC0000, 0x1FE00FF, none⟩] ++
  [⟨.rdHram, 0x0FF8000, 0x1FFC0FF, none⟩,
   ⟨.rdHram, 0x0FFC000, 0x1FFE0FF, none⟩,
   ⟨.rdHram, 0x0FFE000, 0x1FFF0FF, none⟩,
   ⟨.rdHram, 0x0FFF000, 0x1FFF8FF, none⟩,
   ⟨.rdHram, 0x0FFF800, 0x1FFFCFF, none⟩,
   ⟨.rdHram, 0x0FFFC00, 0x1FFFEFF, none⟩,
   ⟨.rdHram, 0x0FFFE00, 0x1FFFFFF, none⟩,
   ⟨.rdUnh, 0x0FE0000, 0x1FF00FF, none⟩,
   ⟨.rdUnh, 0x0FF0000, 0x1FF80FF, none⟩,
   ⟨.rdUnh, 0x0FFFF00, 0x1FFFFFF, none⟩,
   ⟨.wrRamen, 0x1000000, 0x1E00000, some .mbc1⟩] ++
  [⟨.wrRomlo, 0x1200000, 0x1E00000, some .mbc1⟩,
   ⟨.wrBankhi, 0x1400000, 0x1E00000, some .mbc1⟩,
   ⟨.wrMode, 0x1600000, 0x1E00000, some .mbc1⟩,
   ⟨.wrCtrlNone, 0x1000000, 0x1800000, some .none⟩,
   ⟨.wrVram, 0x1800000, 0x1E00000, none⟩,
   ⟨.wrXramMbc1, 0x1A00000, 0x1E00000, some .mbc1⟩,
   ⟨.wrXramNone, 0x1A00000, 0x1E00000, some .none⟩,
   ⟨.wrWram, 0x1C00000, 0x1E00000, none⟩,
   ⟨.wrEcho, 0x1E00000, 0x1F00000, none⟩,
   ⟨.wrEcho, 0x1F00000, 0x1F80000, none⟩,
   ⟨.wrEcho, 0x1F80000, 0x1FC0000, none⟩] ++
  [⟨.wrEcho, 0x1FC0000, 0x1FE0000, none⟩,
   ⟨.wrHram, 0x1FF8000, 0x1FFC000, none⟩,
   ⟨.wrHram, 0x1FFC000, 0x1FFE000, none⟩,
   ⟨.wrHram, 0x1FFE000, 0x1FFF000, none⟩,
   ⟨.wrHram, 0x1FFF000, 0x1FFF800, none⟩,
   ⟨.wrHram, 0x1FFF800, 0x1FFFC00, none⟩,
   ⟨.wrHram, 0x1FFFC00, 0x1FFFE00, none⟩,
   ⟨.wrHram, 0x1FFFE00, 0x1FFFF00, none⟩,
   ⟨.wrUnh, 0x1FE0000, 0x1FF0000, none⟩,
   ⟨.wrUnh, 0x1FF0000, 0x1FF8000, none⟩,
   ⟨.wrUnh, 0x1FFFF00, 0x1FFFF00, none⟩]

/-- The instruction the decoder reads from a word of the opcode table, in a word of `nbits` bits. The table's rows of
kind MBC1 and of kind None share their words, and this function is given no kind: it decodes for MBC1, the kind of
State.reset (log 9). -/
def decodeTableWord (nbits w : Nat) : Option Instr :=
  match decode .mbc1 (w % 2 ^ nbits) with
  | .ok i => some i
  | .error _ => none

end Sys2Proof
end

