-- ==== Sys2Proof/Machine/State.lean ====
section
/-! DEFINITION. The state of the block and of its session (10_state.md), what the host may ask and what it is given
(44_host_interface.md), the reasons a step can stop, and the state after reset. -/

namespace Sys2Proof.Machine

/-- A storage array as a sparse list of cells (offset, byte): offsets strictly rising, no cell holding 0x00, which is
what an offset that is not listed holds (log 5). -/
abbrev Memory := List Host.Cell

/-- A cartridge image: a sequence of `size` bytes, byte `p` of which is what `bytes` holds at `p` (00_scope.md R6). -/
structure Image where
  size  : Nat
  bytes : Memory
deriving DecidableEq, Repr

/-- The banking mode (10_state.md R17). -/
inductive BankingMode where
  | romBanking
  | ramBanking
deriving DecidableEq, Repr

/-- One AddressBus and its MBC: the configuration, fixed for the session, and the mutable state (10_state.md R13). -/
structure Bus where
  /-- The controller kind (R13). -/
  kind            : Kind
  /-- `N`, the number of 16 KiB ROM banks (R22; 00_scope.md R6). -/
  romBanks        : Nat
  /-- The ROM image bytes (R22). -/
  rom             : Memory
  /-- The size of the external RAM (R23). -/
  ramSize         : RamSize
  /-- Whether the external RAM is battery-backed (00_scope.md R7). -/
  battery         : Bool
  /-- The parameter LOGO_REF (R13; 00_scope.md R9). -/
  logoRef         : List Byte
  /-- The header parsed at construction (R26). -/
  header          : Header
  /-- `rom_bank_selector[4:0]` (R15). -/
  low5            : BitVec 5
  /-- `rom_bank_selector[6:5]` (R15). -/
  high2           : BitVec 2
  /-- `ram_bank_selector` (R16). -/
  ramBankSelector : BitVec 2
  /-- `banking_mode` (R17). -/
  bankingMode     : BankingMode
  /-- `ram_write_enabled` (R18). -/
  ramWriteEnabled : Bool
  /-- The external RAM (R23). -/
  xram            : Memory
  /-- Video RAM (R25). -/
  vram            : Memory
  /-- Work RAM (R25). -/
  wram            : Memory
  /-- High RAM (R25). -/
  hram            : Memory
deriving DecidableEq, Repr

/-- The writable storage arrays of a bus (10_state.md R23, R25). -/
inductive Region where
  | xram
  | vram
  | wram
  | hram
deriving DecidableEq, Repr

/-- Where a session stands: before a successful construct, between construct and destroy, after destroy
(44_host_interface.md R136; 60_exceptions.md R153; 70_reset_and_hazards.md R166; log 10). -/
inductive Phase where
  | unbuilt
  | live
  | destroyed
deriving DecidableEq, Repr

/-- Why a header is malformed: the sub-codes of `MalformedHeader` (60_exceptions.md R141). -/
inductive HeaderDefect where
  | tooShort
  | titleNotText
deriving DecidableEq, Repr

/-- The error kinds (60_exceptions.md R141). `outOfRangeBank` and `ramWriteDisabled` are recovered conditions, raised
by no operation (R145, R146). -/
inductive ErrorKind where
  | malformedHeader (defect : HeaderDefect)
  | unsupportedControllerKind
  | outOfRangeBank
  | ramWriteDisabled
  | saveSizeMismatch
  | imageSizeUnsupported
  | notPersistent
deriving DecidableEq, Repr

/-- What an operation gives the host (44_host_interface.md R137, R140). `byte`, `done` and `unhandled` are the results
of transactions (00_scope.md section 4). -/
inductive Response where
  | byte (v : Byte)
  | done
  | unhandled
  | bus
  | nothing
  | dump (data : List Byte)
  | answer (a : HeaderAnswer)
  | report (content : DebugReport) (text : String)
  | error (e : ErrorKind)
deriving DecidableEq, Repr

/-- The arguments of `construct`: the image, a configuration the host may supply in place of the header's, and the open
parameters (44_host_interface.md R128; 00_scope.md R9, R11). -/
structure Launch where
  image    : Image
  config?  : Option BusConfig
  logoRef  : List Byte
  ramInit  : Memory
  initVram : Memory
  initWram : Memory
  initHram : Memory
deriving DecidableEq, Repr

/-- The host operations, the transactions among them (44_host_interface.md R127). A transaction is its word
(30_encoding.md R51). -/
inductive HostOp where
  | construct (l : Launch)
  | transaction (word : Nat)
  | query (q : HeaderQuery)
  | save
  | restore (data : List Byte)
  | debugReport
  | destroy
deriving DecidableEq, Repr

/-- The machine stops with a fault. No transaction is a fault (93_implementation_defined.md section 1); these are the
bounds checks of the storage arrays (10_state.md R22), and no state that meets `State.Inv` reaches one (log 7). -/
inductive Fault where
  /-- Raised by a ROM read at an offset at or above L = N * 0x4000; safe (log 7). -/
  | romOutOfBounds
  /-- Raised by an access to a writable array at an offset at or above its size; safe (log 7). -/
  | storageOutOfBounds (r : Region)
deriving DecidableEq, Repr

/-- What the model refuses, each by name. -/
inductive Refusal where
  /-- An instruction without a meaning; raised by no arm of `exec`; safe. -/
  | notModelled (mnemonic : String)
  /-- Raised by a transaction whose word spells none (30_encoding.md R53); safe. -/
  | invalidWord (why : InvalidWord)
  /-- Raised by a step when the host issues no further operation: the run has ended (70_reset_and_hazards.md R166);
  safe (log 10). -/
  | runEnded
  /-- Raised by an operation other than construct when there is no bus (60_exceptions.md R153); safe (log 10). -/
  | noBus
  /-- Raised by construct while the session's bus exists (43_bus_router.md R125; 70_reset_and_hazards.md R166); safe
  (log 10). -/
  | sessionOpen
  /-- Raised by every operation after destroy (44_host_interface.md R136); safe (log 10). -/
  | sessionEnded
  /-- Raised by construct on a host-supplied configuration that 00_scope.md R7 does not admit
  (70_reset_and_hazards.md R158); safe (log 11). -/
  | configNotAdmitted
  /-- Raised by construct on a launch that is no launch: an image or an initial content that is not an array of its
  size in canonical form, or a LOGO_REF that is not 48 bytes; safe (log 11). -/
  | launchIllFormed
deriving DecidableEq, Repr

/-- The whole machine: the session's bus, and three fields of the MODEL's own that the block does not hold
(10_state.md R13): the host's coming operations (log 1), what the host was given (log 2), the draw counter (log 3). -/
structure State where
  phase   : Phase
  bus     : Bus
  pending : List HostOp
  shown   : List Response
  draws   : Nat
deriving DecidableEq, Repr

/-- The header of the all-zero image that State.reset holds (log 4); `Laws` shows that parsing that image gives it. -/
def Header.zero : Header where
  title                  := []
  manufacturer           := [0, 0, 0, 0]
  color                  := .undefined
  licensee               := .legacy 0
  superConsole           := .unsupported
  cartridgeType          := 0
  romSizeByte            := 0
  ramSizeByte            := 0
  region                 := .japan
  version                := 0
  declaredHeaderChecksum := 0
  computedHeaderChecksum := 0xE7
  declaredGlobalChecksum := 0
  computedGlobalChecksum := 0
  logoOk                 := false

/-- The bus after construction (70_reset_and_hazards.md R159), for the launch arguments of log 4: an all-zero image of
128 banks and the host-supplied configuration MBC1, 32 KiB of battery-backed RAM. -/
def Bus.reset : Bus where
  kind            := .mbc1
  romBanks        := 128
  rom             := []
  ramSize         := .kib32
  battery         := true
  logoRef         := Config.logoRefDefault
  header          := Header.zero
  low5            := 0x01
  high2           := 0
  ramBankSelector := 0
  bankingMode     := .romBanking
  ramWriteEnabled := false
  xram            := []
  vram            := []
  wram            := []
  hram            := []

/-- No bus: what the bus field holds when the phase is not `live`. Nothing reads it (log 10). -/
def Bus.void : Bus := { Bus.reset with romBanks := 0, ramSize := .absent, battery := false, logoRef := [] }

/-- The machine right after reset: reset is construction (70_reset_and_hazards.md R157, R159). -/
def State.reset : State where
  phase   := .live
  bus     := Bus.reset
  pending := []
  shown   := []
  draws   := 0

/-- Before any construct: no bus exists (70_reset_and_hazards.md R157). -/
def State.unbuilt : State where
  phase   := .unbuilt
  bus     := Bus.void
  pending := []
  shown   := []
  draws   := 0

/-- The three outcomes of a step of this machine. -/
abbrev Out := Host.Outcome State Fault Refusal

end Sys2Proof.Machine
end

