-- ==== Sys2Proof/Machine/Memory.lean ====
section
/-! DEFINITION. The storage arrays as sparse lists of cells: reading and writing one byte, the canonical form, and the
raw byte sequence of an array (10_state.md R22, R23, R25; 44_host_interface.md R133). -/

namespace Sys2Proof.Machine

/-- What an offset that is not listed holds (log 5). -/
def Memory.blank : Byte := 0x00

/-- The byte at offset `p`. -/
def Memory.read (m : Memory) (p : Nat) : Byte :=
  match m with
  | [] => Memory.blank
  | (q, v) :: rest => if q = p then v else Memory.read rest p

/-- The cell of `v` at `p` in front of `m`, or none where `v` is what an unlisted offset holds. -/
def Memory.put (p : Nat) (v : Byte) (m : Memory) : Memory := if v = Memory.blank then m else (p, v) :: m

/-- The byte at offset `p` set to `v`, in canonical form. -/
def Memory.write (m : Memory) (p : Nat) (v : Byte) : Memory :=
  match m with
  | [] => Memory.put p v []
  | (q, w) :: rest =>
    if p < q then Memory.put p v ((q, w) :: rest)
    else if p = q then Memory.put p v rest
    else (q, w) :: Memory.write rest p v

/-- The canonical form: offsets strictly rising, and no cell holding what an unlisted offset holds. -/
abbrev Memory.wf (m : Memory) : Prop := m.Pairwise (fun c e => c.1 < e.1) ∧ ∀ c ∈ m, c.2 ≠ Memory.blank

/-- Every listed offset lies below `n`: the cells of an array of `n` bytes. -/
abbrev Memory.below (m : Memory) (n : Nat) : Prop := ∀ c ∈ m, c.1 < n

/-- The cells of a raw byte sequence that starts at offset `p`. -/
def Memory.ofBytesFrom (p : Nat) (bs : List Byte) : Memory :=
  match bs with
  | [] => []
  | b :: rest => Memory.put p b (Memory.ofBytesFrom (p + 1) rest)

/-- The array of a raw byte sequence: byte `i` of the sequence at offset `i` (44_host_interface.md R133). -/
def Memory.ofBytes (bs : List Byte) : Memory := Memory.ofBytesFrom 0 bs

/-- The bytes at offsets `p` to `p + n - 1`, in offset order. -/
def Memory.bytesAt (m : Memory) (p n : Nat) : List Byte := (List.range n).map (fun i => Memory.read m (p + i))

/-- The image of a raw byte sequence (00_scope.md R6). -/
def Image.ofBytes (bs : List Byte) : Image := ⟨bs.length, Memory.ofBytes bs⟩

/-- Byte `p` of an image. -/
def Image.byte (img : Image) (p : Nat) : Byte := img.bytes.read p

/-- The bytes of an image at offsets `p` to `p + n - 1`. -/
def Image.bytesAt (img : Image) (p n : Nat) : List Byte := img.bytes.bytesAt p n

/-- A byte sequence in its canonical form. -/
abbrev Image.wf (img : Image) : Prop := img.bytes.wf ∧ img.bytes.below img.size

end Sys2Proof.Machine
end

