-- ==== Sys2Proof/Machine/Operands.lean ====
section
/-! DEFINITION. The operand forms: the sub-fields of a control write's value (30_encoding.md R56), the offset of an
address in its range (20_memory.md R43), the sizes of the arrays, and the physical RAM offset (42_mbc_read.md R102). -/

namespace Sys2Proof.Machine

/-- `D[3:0]`, the operand of WR.RAMEN (30_encoding.md R56). -/
def valueLatch (d : Byte) : BitVec 4 := d.extractLsb' 0 4

/-- `D[4:0]`, the operand of WR.ROMLO (30_encoding.md R56). -/
def valueLow5 (d : Byte) : BitVec 5 := d.extractLsb' 0 5

/-- `D[1:0]`, the operand of WR.BANKHI (30_encoding.md R56; D5). -/
def valueBank2 (d : Byte) : BitVec 2 := d.extractLsb' 0 2

/-- `D[0]`, the operand of WR.MODE (30_encoding.md R56; D6). -/
def valueMode (d : Byte) : BitVec 1 := d.extractLsb' 0 1

/-- `a - base`, the offset of an address in a range that starts at `base`, in the address's own 16 bits: an address
below `base` gives an offset no array has. -/
def offsetFrom (base a : Addr) : Nat := (a - base).toNat

/-- The bytes of an external RAM (00_scope.md R7). -/
def ramBytes : RamSize → Nat
  | .absent => 0
  | .kib2   => 0x800
  | .kib8   => 0x2000
  | .kib32  => 0x8000

/-- `L`, the bytes of the ROM (10_state.md R22). -/
def Bus.romBytes (b : Bus) : Nat := b.romBanks * 0x4000

/-- The image a bus was built from (10_state.md R22). -/
def Bus.image (b : Bus) : Image := ⟨b.romBytes, b.rom⟩

/-- The bytes of a writable array (00_scope.md R10; 10_state.md R23, R25). -/
def Bus.regionBytes (b : Bus) : Region → Nat
  | .xram => ramBytes b.ramSize
  | .vram => 0x2000
  | .wram => 0x2000
  | .hram => 0x7F

/-- A writable array. -/
def Bus.region (b : Bus) : Region → Memory
  | .xram => b.xram
  | .vram => b.vram
  | .wram => b.wram
  | .hram => b.hram

/-- A bus with one writable array replaced. -/
def Bus.setRegion (b : Bus) (r : Region) (m : Memory) : Bus :=
  match r with
  | .xram => { b with xram := m }
  | .vram => { b with vram := m }
  | .wram => { b with wram := m }
  | .hram => { b with hram := m }

/-- `ram_phys(A)`, for `ram_size > 0` (42_mbc_read.md R102; 20_memory.md R36). -/
def Bus.ramPhys (b : Bus) (a : Addr) : Nat :=
  (b.ramBankSelector.toNat * 0x2000 + offsetFrom 0xA000 a) % ramBytes b.ramSize

end Sys2Proof.Machine
end

