-- ==== Sys2Proof/Machine/Flags.lean ====
section
/-! DEFINITION. What the MBC registers become and what they select. This hardware's flags are the registers a control
write sets (41_mbc_write.md R88 to R91); the bank aliaser reads them (42_mbc_read.md R99, R101). -/

namespace Sys2Proof.Machine

/-- The new `ram_write_enabled`: the low nibble is 0xA (41_mbc_write.md R88). -/
def latchOf (d : Byte) : Bool := decide (valueLatch d = 0xA)

/-- The new `low5`: the masked value, a masked 0 stored as 1 (41_mbc_write.md R89; D4). -/
def low5Of (d : Byte) : BitVec 5 := if valueLow5 d = 0 then 1 else valueLow5 d

/-- The mode a value selects: 0 RomBanking, 1 RamBanking (10_state.md R17; 41_mbc_write.md R91; D6). -/
def modeOf (d : Byte) : BankingMode := if valueMode d = 0 then .romBanking else .ramBanking

/-- `rom_bank_selector`, the 7-bit register whose two fields are `high2` and `low5` (10_state.md R15). -/
def Bus.romBankSelector (b : Bus) : BitVec 7 := b.high2 ++ b.low5

/-- `h`: the `high2` that counts, 0 in RamBanking (42_mbc_read.md R99). -/
def Bus.activeHigh2 (b : Bus) : BitVec 2 :=
  match b.bankingMode with
  | .romBanking => b.high2
  | .ramBanking => 0

/-- A raw bank of 0x00, 0x20, 0x40 or 0x60 becomes the next one (42_mbc_read.md R99). -/
def remapBank (raw : BitVec 7) : BitVec 7 :=
  if raw = 0x00 ∨ raw = 0x20 ∨ raw = 0x40 ∨ raw = 0x60 then raw + 1 else raw

/-- The raw bank of the MBC1 high window, before the reduction (42_mbc_read.md R99; 10_state.md R30). -/
def Bus.rawBank (b : Bus) : BitVec 7 := remapBank (b.activeHigh2 ++ b.low5)

/-- `effective_rom_bank()`: the raw bank modulo `N` (42_mbc_read.md R99). -/
def Bus.effectiveRomBank (b : Bus) : Nat := b.rawBank.toNat % b.romBanks

/-- The bank of the None high window, `1 mod N` (42_mbc_read.md R101; D31). -/
def Bus.noneRomBank (b : Bus) : Nat := 1 % b.romBanks

/-- A WR.BANKHI of `v`: `high2` in RomBanking, `ram_bank_selector` in RamBanking (41_mbc_write.md R90). -/
def Bus.setBankHi (b : Bus) (v : BitVec 2) : Bus :=
  match b.bankingMode with
  | .romBanking => { b with high2 := v }
  | .ramBanking => { b with ramBankSelector := v }

/-- A WR.MODE of `m`, with the field the new mode forces to 0 (41_mbc_write.md R91). -/
def Bus.setMode (b : Bus) (m : BankingMode) : Bus :=
  match m with
  | .romBanking => { b with bankingMode := .romBanking, ramBankSelector := 0 }
  | .ramBanking => { b with bankingMode := .ramBanking, high2 := 0 }

end Sys2Proof.Machine
end

