-- ==== Sys2Proof/Machine/Ops.lean ====
section
/-! DEFINITION. The shared operations of the meanings: giving the host a response, reading ROM, reading and writing one
cell of a writable array, and drawing open_bus. The block takes no exception and returns from none (60_exceptions.md
R151 to R153): a transaction answers, and an error of a host operation is a response. -/

namespace Sys2Proof.Machine

/-- The host is given `r` (44_host_interface.md R140). -/
def State.answer (s : State) (r : Response) : State := { s with shown := s.shown ++ [r] }

/-- The machine with another bus. -/
def State.withBus (s : State) (b : Bus) : State := { s with bus := b }

/-- The transaction returns `r` and the bus is as `b` (00_scope.md section 4). -/
def finish (s : State) (b : Bus) (r : Response) : Out := .next ((s.withBus b).answer r)

/-- `return Byte(rom[p])`, bounds-checked (10_state.md R22). -/
def readRom (p : Nat) (s : State) : Out :=
  if p < s.bus.romBytes then finish s s.bus (.byte (s.bus.rom.read p)) else .fault .romOutOfBounds

/-- `return Byte(rom[b * 0x4000 + (A - 0x4000)])`: the high window over bank `b` (20_memory.md R35). -/
def readHighWindow (bank : Nat) (a : Addr) (s : State) : Out := readRom (bank * 0x4000 + offsetFrom 0x4000 a) s

/-- `return Byte(r[p])`, bounds-checked. -/
def readCell (r : Region) (p : Nat) (s : State) : Out :=
  if p < s.bus.regionBytes r then finish s s.bus (.byte ((s.bus.region r).read p)) else .fault (.storageOutOfBounds r)

/-- `r[p] <- D; return Done`, bounds-checked. -/
def writeCell (r : Region) (p : Nat) (d : Byte) (s : State) : Out :=
  if p < s.bus.regionBytes r then finish s (s.bus.setRegion r ((s.bus.region r).write p d)) .done
  else .fault (.storageOutOfBounds r)

/-- `return Byte(draw open_bus)`: a fresh free byte, a different draw at every read (42_mbc_read.md R103; log 3). -/
def drawOpenBus (s : State) : Out :=
  .next (({ s with draws := s.draws + 1 } : State).answer (.byte (Config.openBus s.draws)))

end Sys2Proof.Machine
end

