-- ==== Sys2Proof/Machine/MbcRead.lean ====
section
/-! DEFINITION. The MBC's read-side operations (42_mbc_read.md R98 to R104). None writes a register or a cell (R108),
and none consults the write-enable latch (R105). -/

namespace Sys2Proof.Machine

/-- RD.ROM0: the low window is ROM bank 0, always (R98, R110). -/
def execRdRom0 (a : Addr) (s : State) : Out := readRom a.toNat s

/-- RD.ROMX.MBC1: the high window over the effective bank, recomputed at every read (R99, R100). -/
def execRdRomxMbc1 (a : Addr) (s : State) : Out := readHighWindow s.bus.effectiveRomBank a s

/-- RD.ROMX.NONE: the high window over bank `1 mod N` (R101). -/
def execRdRomxNone (a : Addr) (s : State) : Out := readHighWindow s.bus.noneRomBank a s

/-- RD.XRAM.MBC1: the RAM byte at `ram_phys(A)`, or a draw where there is no RAM (R102, R103). -/
def execRdXramMbc1 (a : Addr) (s : State) : Out :=
  if 0 < ramBytes s.bus.ramSize then readCell .xram (s.bus.ramPhys a) s else drawOpenBus s

/-- RD.XRAM.NONE: a draw; the address does not matter (R104). -/
def execRdXramNone (_a : Addr) (s : State) : Out := drawOpenBus s

end Sys2Proof.Machine
end

