-- ==== Sys2Proof/Machine/MbcWrite.lean ====
section
/-! DEFINITION. The MBC's write-side operations (41_mbc_write.md R88 to R95). Each returns Done (R97); the position of
the address in its range does not matter to a control write (R87). -/

namespace Sys2Proof.Machine

/-- WR.RAMEN: the write-enable latch from the low nibble (R88). -/
def execWrRamen (_a : Addr) (d : Byte) (s : State) : Out :=
  finish s { s.bus with ramWriteEnabled := latchOf d } .done

/-- WR.ROMLO: the low 5 bits of the ROM selector, 0 stored as 1 (R89). -/
def execWrRomlo (_a : Addr) (d : Byte) (s : State) : Out := finish s { s.bus with low5 := low5Of d } .done

/-- WR.BANKHI: the high 2 bits of the ROM selector, or the RAM bank (R90). -/
def execWrBankhi (_a : Addr) (d : Byte) (s : State) : Out := finish s (s.bus.setBankHi (valueBank2 d)) .done

/-- WR.MODE: the banking mode, with the forcing of the other field (R91). -/
def execWrMode (_a : Addr) (d : Byte) (s : State) : Out := finish s (s.bus.setMode (modeOf d)) .done

/-- WR.CTRL.NONE: ignored (R93). -/
def execWrCtrlNone (_a : Addr) (_d : Byte) (s : State) : Out := finish s s.bus .done

/-- WR.XRAM.MBC1: one RAM byte where RAM is present and the latch on; otherwise discarded (R94; 60_exceptions.md
R146). -/
def execWrXramMbc1 (a : Addr) (d : Byte) (s : State) : Out :=
  if s.bus.ramWriteEnabled = true ∧ 0 < ramBytes s.bus.ramSize then writeCell .xram (s.bus.ramPhys a) d s
  else finish s s.bus .done

/-- WR.XRAM.NONE: discarded (R95). -/
def execWrXramNone (_a : Addr) (_d : Byte) (s : State) : Out := finish s s.bus .done

end Sys2Proof.Machine
end

