-- ==== Sys2Proof/Machine/Router.lean ====
section
/-! DEFINITION. The AddressBus's own regions: video RAM, work RAM and its echo, high RAM, and the unhandled ranges
(43_bus_router.md R113 to R122). -/

namespace Sys2Proof.Machine

/-- RD.VRAM (R113). -/
def execRdVram (a : Addr) (s : State) : Out := readCell .vram (offsetFrom 0x8000 a) s

/-- WR.VRAM (R114). -/
def execWrVram (a : Addr) (d : Byte) (s : State) : Out := writeCell .vram (offsetFrom 0x8000 a) d s

/-- RD.WRAM (R115). -/
def execRdWram (a : Addr) (s : State) : Out := readCell .wram (offsetFrom 0xC000 a) s

/-- WR.WRAM (R116). -/
def execWrWram (a : Addr) (d : Byte) (s : State) : Out := writeCell .wram (offsetFrom 0xC000 a) d s

/-- RD.ECHO: the work-RAM cell of `A - 0x2000` (R117). -/
def execRdEcho (a : Addr) (s : State) : Out := readCell .wram (offsetFrom 0xE000 a) s

/-- WR.ECHO: the work-RAM cell of `A - 0x2000` (R118). -/
def execWrEcho (a : Addr) (d : Byte) (s : State) : Out := writeCell .wram (offsetFrom 0xE000 a) d s

/-- RD.HRAM (R119). -/
def execRdHram (a : Addr) (s : State) : Out := readCell .hram (offsetFrom 0xFF80 a) s

/-- WR.HRAM (R120). -/
def execWrHram (a : Addr) (d : Byte) (s : State) : Out := writeCell .hram (offsetFrom 0xFF80 a) d s

/-- RD.UNH: the unhandled-region signal, no byte (R121; 60_exceptions.md R142). -/
def execRdUnh (_a : Addr) (s : State) : Out := finish s s.bus .unhandled

/-- WR.UNH: the unhandled-region signal, nothing written (R122; 60_exceptions.md R142; D21). -/
def execWrUnh (_a : Addr) (_d : Byte) (s : State) : Out := finish s s.bus .unhandled

end Sys2Proof.Machine
end

