-- ==== Sys2Proof/Machine/Dispatch.lean ====
section
/-! DEFINITION. The dispatch: one arm per operation of the opcode map (30_encoding.md R57). -/

namespace Sys2Proof.Machine

/-- The meaning of an instruction. -/
def exec (i : Instr) (s : State) : Host.Outcome State Fault Refusal :=
  match i with
  | .rdRom0 a => Sys2Proof.Machine.execRdRom0 a s
  | .rdRomxMbc1 a => Sys2Proof.Machine.execRdRomxMbc1 a s
  | .rdRomxNone a => Sys2Proof.Machine.execRdRomxNone a s
  | .rdVram a => Sys2Proof.Machine.execRdVram a s
  | .rdXramMbc1 a => Sys2Proof.Machine.execRdXramMbc1 a s
  | .rdXramNone a => Sys2Proof.Machine.execRdXramNone a s
  | .rdWram a => Sys2Proof.Machine.execRdWram a s
  | .rdEcho a => Sys2Proof.Machine.execRdEcho a s
  | .rdHram a => Sys2Proof.Machine.execRdHram a s
  | .rdUnh a => Sys2Proof.Machine.execRdUnh a s
  | .wrRamen a d => Sys2Proof.Machine.execWrRamen a d s
  | .wrRomlo a d => Sys2Proof.Machine.execWrRomlo a d s
  | .wrBankhi a d => Sys2Proof.Machine.execWrBankhi a d s
  | .wrMode a d => Sys2Proof.Machine.execWrMode a d s
  | .wrCtrlNone a d => Sys2Proof.Machine.execWrCtrlNone a d s
  | .wrVram a d => Sys2Proof.Machine.execWrVram a d s
  | .wrXramMbc1 a d => Sys2Proof.Machine.execWrXramMbc1 a d s
  | .wrXramNone a d => Sys2Proof.Machine.execWrXramNone a d s
  | .wrWram a d => Sys2Proof.Machine.execWrWram a d s
  | .wrEcho a d => Sys2Proof.Machine.execWrEcho a d s
  | .wrHram a d => Sys2Proof.Machine.execWrHram a d s
  | .wrUnh a d => Sys2Proof.Machine.execWrUnh a d s

end Sys2Proof.Machine
end

