-- ==== Sys2Proof/Machine/Header.lean ====
section
/-! DEFINITION. The cartridge header: parsing, its checks, and the configuration derived from it, all pure functions of
the image bytes (40_header.md R65 to R86). -/

namespace Sys2Proof.Machine

/-- Where a UTF-8 sequence stands: how many continuation bytes are still to come, and the range of the next one. -/
structure Utf8Expect where
  left : Nat
  lo   : Byte
  hi   : Byte
deriving DecidableEq, Repr

/-- Between two characters. -/
def Utf8Expect.boundary : Utf8Expect := ⟨0, 0x80, 0xBF⟩

/-- What the first byte of a character makes expected; none where it starts no character. The ranges leave out overlong
forms, surrogates and values above U+10FFFF (log 12). -/
def utf8Lead (b : Byte) : Option Utf8Expect :=
  if b < 0x80 then some ⟨0, 0x80, 0xBF⟩
  else if b < 0xC2 then none
  else if b < 0xE0 then some ⟨1, 0x80, 0xBF⟩
  else if b = 0xE0 then some ⟨2, 0xA0, 0xBF⟩
  else if b = 0xED then some ⟨2, 0x80, 0x9F⟩
  else if b < 0xF0 then some ⟨2, 0x80, 0xBF⟩
  else if b = 0xF0 then some ⟨3, 0x90, 0xBF⟩
  else if b < 0xF4 then some ⟨3, 0x80, 0xBF⟩
  else if b = 0xF4 then some ⟨3, 0x80, 0x8F⟩
  else none

/-- One byte of a UTF-8 sequence. -/
def utf8Step (e : Utf8Expect) (b : Byte) : Option Utf8Expect :=
  match e.left with
  | 0 => utf8Lead b
  | n + 1 => if e.lo ≤ b ∧ b ≤ e.hi then some ⟨n, 0x80, 0xBF⟩ else none

/-- The bytes go on from `e` to the end of a character. -/
def utf8From (e : Utf8Expect) (bs : List Byte) : Bool :=
  match bs with
  | [] => decide (e.left = 0)
  | b :: rest =>
    match utf8Step e b with
    | some e' => utf8From e' rest
    | none => false

/-- `valid_utf8(t)` (40_header.md R69; log 12). -/
def validUtf8 (bs : List Byte) : Bool := utf8From Utf8Expect.boundary bs

/-- Trailing bytes of value 0x80 or more dropped (40_header.md R68). -/
def dropPadding (t : List Byte) : List Byte := (t.reverse.dropWhile (fun b => decide (0x80 ≤ b))).reverse

/-- `title(img)`: the region 0x134 to 0x143, cut at the first 0x00, less its padding (40_header.md R68). -/
def titleOf (img : Image) : List Byte := dropPadding ((img.bytesAt 0x134 16).takeWhile (fun b => decide (b ≠ 0x00)))

/-- The color-support flag (40_header.md R71). -/
def colorOf (f : Byte) : ColorSupport :=
  if f = 0x80 then .backwardsCompatible
  else if f = 0xC0 then .gbcOnly
  else if f < 0x80 then .undefined
  else .invalid

/-- The Super-console feature flag (40_header.md R72). -/
def superConsoleOf (f : Byte) : SuperConsole :=
  if f = 0x00 then .unsupported else if f = 0x03 then .supported else .invalid

/-- The region code (40_header.md R73). -/
def regionOf (f : Byte) : RegionCode :=
  if f = 0x00 then .japan else if f = 0x01 then .nonJapan else .invalid

/-- `licensee(img)` (40_header.md R78). -/
def licenseeOf (img : Image) : Licensee :=
  if img.byte 0x14B = 0x33 then .modern (img.byte 0x144) (img.byte 0x145) else .legacy (img.byte 0x14B)

/-- `computed_header_checksum(img)`: the running difference over 0x134 to 0x14C (40_header.md R75). -/
def headerChecksum (img : Image) : Byte := (img.bytesAt 0x134 25).foldl (fun acc b => acc - b - 1) 0

/-- What one cell of an image adds to the global sum: nothing at the two checksum offsets (40_header.md R76). -/
def globalTerm (c : Host.Cell) : BitVec 16 := if c.1 = 0x14E ∨ c.1 = 0x14F then 0 else c.2.setWidth 16

/-- `computed_global_checksum(img)`: the 16-bit sum of all bytes of the image but the two checksum bytes (40_header.md
R76). The bytes that no cell lists are 0x00 and add nothing, so the sum runs over the cells; an obligation states that
it is R76's loop over every offset. -/
def globalChecksum (img : Image) : BitVec 16 := img.bytes.foldl (fun s c => s + globalTerm c) 0

/-- The declared global checksum, big-endian (40_header.md R76; 20_memory.md R37). -/
def declaredGlobal (img : Image) : BitVec 16 := img.byte 0x14E ++ img.byte 0x14F

/-- `logo_ok`: the 48 bytes from 0x104 are LOGO_REF (40_header.md R77). -/
def logoMatches (logoRef : List Byte) (img : Image) : Bool := decide (img.bytesAt 0x104 48 = logoRef)

/-- The header value of an image (40_header.md R67 to R78). -/
def headerOf (logoRef : List Byte) (img : Image) : Header where
  title                  := titleOf img
  manufacturer           := img.bytesAt 0x13F 4
  color                  := colorOf (img.byte 0x143)
  licensee               := licenseeOf img
  superConsole           := superConsoleOf (img.byte 0x146)
  cartridgeType          := img.byte 0x147
  romSizeByte            := img.byte 0x148
  ramSizeByte            := img.byte 0x149
  region                 := regionOf (img.byte 0x14A)
  version                := img.byte 0x14C
  declaredHeaderChecksum := img.byte 0x14D
  computedHeaderChecksum := headerChecksum img
  declaredGlobalChecksum := declaredGlobal img
  computedGlobalChecksum := globalChecksum img
  logoOk                 := logoMatches logoRef img

/-- `parse(img)`: the length check, then the title check (40_header.md R66, R69, R86). -/
def parseHeader (logoRef : List Byte) (img : Image) : Except ErrorKind Header :=
  if img.size < 0x150 then .error (.malformedHeader .tooShort)
  else if validUtf8 (titleOf img) = false then .error (.malformedHeader .titleNotText)
  else .ok (headerOf logoRef img)

/-- `header_checksum_ok` (40_header.md R75). -/
def headerChecksumOk (h : Header) : Bool := decide (h.computedHeaderChecksum = h.declaredHeaderChecksum)

/-- `global_checksum_ok`, a verdict of its own (40_header.md R76, R79). -/
def globalChecksumOk (h : Header) : Bool := decide (h.computedGlobalChecksum = h.declaredGlobalChecksum)

/-- `is_runnable`: the header checksum and the logo, not the global checksum (40_header.md R79). -/
def isRunnable (h : Header) : Bool := headerChecksumOk h && h.logoOk

/-- What the cartridge-type byte selects: the kind, whether RAM is present, whether it is battery-backed (40_header.md
R82). -/
def cartridgeOf (t : Byte) : Except ErrorKind (Kind × Bool × Bool) :=
  if t = 0x00 then .ok (.none, false, false)
  else if t = 0x01 then .ok (.mbc1, false, false)
  else if t = 0x02 then .ok (.mbc1, true, false)
  else if t = 0x03 then .ok (.mbc1, true, true)
  else .error .unsupportedControllerKind

/-- The RAM size of a RAM size code (40_header.md R83). -/
def ramSizeOf (c : Byte) : Except ErrorKind RamSize :=
  if c = 0x00 then .ok .absent
  else if c = 0x01 then .ok .kib2
  else if c = 0x02 then .ok .kib8
  else if c = 0x03 then .ok .kib32
  else .error .unsupportedControllerKind

/-- The configuration of a header: the RAM size code is read only where the type byte gives RAM (40_header.md R82 to
R84). -/
def configOf (h : Header) : Except ErrorKind BusConfig :=
  match cartridgeOf h.cartridgeType with
  | .error e => .error e
  | .ok (k, false, _) => .ok ⟨k, .absent, false⟩
  | .ok (k, true, bat) =>
    match ramSizeOf h.ramSizeByte with
    | .error e => .error e
    | .ok r => .ok ⟨k, r, bat && decide (r ≠ .absent)⟩

end Sys2Proof.Machine
end

