-- ==== Sys2Proof/Machine/HostOps.lean ====
section
/-! DEFINITION. The host operations other than the transactions: construct, the header queries, save, restore,
debug_report and destroy (44_host_interface.md R127 to R136), and the numbers of the error kinds (60_exceptions.md
R141). -/

namespace Sys2Proof.Machine

/-- The code of an error kind (60_exceptions.md R141; D20). -/
def errorCode : ErrorKind → Nat
  | .malformedHeader _         => 1
  | .unsupportedControllerKind => 2
  | .outOfRangeBank            => 3
  | .ramWriteDisabled          => 4
  | .saveSizeMismatch          => 5
  | .imageSizeUnsupported      => 6
  | .notPersistent             => 7

/-- The sub-code of a malformed header (60_exceptions.md R141). -/
def errorSubCode : ErrorKind → Option Nat
  | .malformedHeader .tooShort     => some 1
  | .malformedHeader .titleNotText => some 2
  | _                              => none

/-- A configuration that 00_scope.md R7 admits: RAM on MBC1 only, a battery only where there is RAM. -/
def admittedConfig (c : BusConfig) : Bool :=
  (decide (c.kind = .mbc1) || decide (c.ramSize = .absent)) && (!c.battery || decide (c.ramSize ≠ .absent))

/-- The launch's image, initial contents of the fixed regions and LOGO_REF are what their parameters are: an image in
canonical form, arrays of 0x2000, 0x2000 and 0x7F bytes, 48 bytes (00_scope.md R6, R9, R11; log 11). -/
def Launch.wellFormed (l : Launch) : Bool :=
  decide l.image.wf && decide (l.logoRef.length = 48) &&
  (decide l.initVram.wf && decide (l.initVram.below 0x2000)) &&
  (decide l.initWram.wf && decide (l.initWram.below 0x2000)) &&
  (decide l.initHram.wf && decide (l.initHram.below 0x7F)) && decide l.ramInit.wf

/-- What `construct` comes to: a bus, an error of 60_exceptions.md R141, or a launch the model refuses. -/
inductive Built where
  | bus (b : Bus)
  | error (e : ErrorKind)
  | refused (r : Refusal)
deriving DecidableEq, Repr

/-- The state after construction (70_reset_and_hazards.md R159; the register values are D7, log 6). -/
def Bus.fresh (l : Launch) (c : BusConfig) (h : Header) : Bus where
  kind            := c.kind
  romBanks        := l.image.size / 0x4000
  rom             := l.image.bytes
  ramSize         := c.ramSize
  battery         := c.battery
  logoRef         := l.logoRef
  header          := h
  low5            := 0x01
  high2           := 0
  ramBankSelector := 0
  bankingMode     := .romBanking
  ramWriteEnabled := false
  xram            := l.ramInit
  vram            := l.initVram
  wram            := l.initWram
  hram            := l.initHram

/-- Steps 4 and 5 of the construction sequence, with the configuration of step 3 (70_reset_and_hazards.md R158). -/
def buildWith (l : Launch) (h : Header) (c : BusConfig) : Built :=
  if admittedConfig c = false then .refused .configNotAdmitted
  else if l.ramInit.below (ramBytes c.ramSize) then .bus (Bus.fresh l c h)
  else .refused .launchIllFormed

/-- `construct(img, config?)`: the sequence of 70_reset_and_hazards.md R158, the first failing step ending it
(60_exceptions.md R150). -/
def construct (l : Launch) : Built :=
  if l.wellFormed = false then .refused .launchIllFormed
  else
    match parseHeader l.logoRef l.image with
    | .error e => .error e
    | .ok h =>
      if l.image.size = 0 ∨ l.image.size % 0x4000 ≠ 0 then .error .imageSizeUnsupported
      else
        match l.config? with
        | some c => buildWith l h c
        | none =>
          match configOf h with
          | .error e => .error e
          | .ok c => buildWith l h c

/-- The launch whose bus is Bus.reset: an all-zero image of 128 banks, MBC1 with 32 KiB of battery-backed RAM, all
initial contents zero, the default LOGO_REF (log 4, log 5). -/
def Launch.reset : Launch where
  image    := ⟨128 * 0x4000, []⟩
  config?  := some ⟨.mbc1, .kib32, true⟩
  logoRef  := Config.logoRefDefault
  ramInit  := []
  initVram := []
  initWram := []
  initHram := []

/-- `save()`: the RAM bytes in offset order (44_host_interface.md R131, R133). -/
def saveRam (b : Bus) : Except ErrorKind (List Byte) :=
  if b.battery = false then .error .notPersistent else .ok (b.xram.bytesAt 0 (ramBytes b.ramSize))

/-- `restore(data)`: only `xram` changes (44_host_interface.md R132; 60_exceptions.md R150). -/
def restoreRam (b : Bus) (data : List Byte) : Except ErrorKind Bus :=
  if b.battery = false then .error .notPersistent
  else if data.length ≠ ramBytes b.ramSize then .error .saveSizeMismatch
  else .ok { b with xram := Memory.ofBytes data }

/-- The answer to a header query, from the header value alone (44_host_interface.md R130). -/
def answerOf (h : Header) : HeaderQuery → HeaderAnswer
  | .title                  => .bytes h.title
  | .manufacturer           => .bytes h.manufacturer
  | .color                  => .color h.color
  | .licensee               => .licensee h.licensee
  | .superConsole           => .superConsole h.superConsole
  | .cartridgeType          => .byte h.cartridgeType
  | .romSizeByte            => .byte h.romSizeByte
  | .ramSizeByte            => .byte h.ramSizeByte
  | .region                 => .region h.region
  | .version                => .byte h.version
  | .declaredHeaderChecksum => .byte h.declaredHeaderChecksum
  | .computedHeaderChecksum => .byte h.computedHeaderChecksum
  | .declaredGlobalChecksum => .half h.declaredGlobalChecksum
  | .computedGlobalChecksum => .half h.computedGlobalChecksum
  | .headerChecksumOk       => .flag (headerChecksumOk h)
  | .globalChecksumOk       => .flag (globalChecksumOk h)
  | .logoOk                 => .flag h.logoOk
  | .isRunnable             => .flag (isRunnable h)

/-- A check as the debug report renders it (44_host_interface.md R135). -/
def checkWord (ok : Bool) : CheckWord := if ok then .ok else .failed

/-- The letters of a rendered check (44_host_interface.md R135). -/
def checkText : CheckWord → String
  | .ok     => "OK"
  | .failed => "FAILED"

/-- The content of the debug report (44_host_interface.md R135). -/
def reportOf (h : Header) : DebugReport where
  header         := h
  logo           := checkWord h.logoOk
  headerChecksum := checkWord (headerChecksumOk h)
  globalChecksum := checkWord (globalChecksumOk h)
  runnability    := checkWord (isRunnable h)

/-- What the report says of one item: the word of a check, the layout's spelling of a field (44_host_interface.md
R135). -/
def reportItem (r : DebugReport) (q : HeaderQuery) : String :=
  match q with
  | .logoOk           => checkText r.logo
  | .headerChecksumOk => checkText r.headerChecksum
  | .globalChecksumOk => checkText r.globalChecksum
  | .isRunnable       => checkText r.runnability
  | .title | .manufacturer | .color | .licensee | .superConsole | .cartridgeType | .romSizeByte | .ramSizeByte | .region
  | .version | .declaredHeaderChecksum | .computedHeaderChecksum | .declaredGlobalChecksum | .computedGlobalChecksum =>
    Config.debugLayout.spell q (answerOf r.header q)

/-- The items from the `n`-th on, each after its gap, and the last gap. -/
def layOut (r : DebugReport) (n : Nat) (items : List HeaderQuery) : String :=
  match items with
  | [] => Config.debugLayout.gap r n
  | q :: rest => Config.debugLayout.gap r n ++ reportItem r q ++ layOut r (n + 1) rest

/-- The text of the debug report (44_host_interface.md R135). -/
def reportText (r : DebugReport) : String := layOut r 0 Config.debugLayout.order

/-- construct as a host operation: a bus, an error that creates none, or a refusal (44_host_interface.md R128;
60_exceptions.md R152). -/
def performConstruct (l : Launch) (s : State) : Out :=
  match construct l with
  | .bus b => .next ((({ s with phase := .live } : State).withBus b).answer .bus)
  | .error e => .next (s.answer (.error e))
  | .refused r => .refused r

/-- A header query: nothing changes (44_host_interface.md R130). -/
def performQuery (q : HeaderQuery) (s : State) : Out := finish s s.bus (.answer (answerOf s.bus.header q))

/-- save as a host operation: the dump, or an error; nothing changes (44_host_interface.md R131). -/
def performSave (s : State) : Out :=
  match saveRam s.bus with
  | .ok data => finish s s.bus (.dump data)
  | .error e => finish s s.bus (.error e)

/-- restore as a host operation: `xram` replaced, or an error and nothing changed (44_host_interface.md R132). -/
def performRestore (data : List Byte) (s : State) : Out :=
  match restoreRam s.bus data with
  | .ok b => finish s b .nothing
  | .error e => finish s s.bus (.error e)

/-- debug_report as a host operation: nothing changes (44_host_interface.md R135). -/
def performReport (s : State) : Out :=
  finish s s.bus (.report (reportOf s.bus.header) (reportText (reportOf s.bus.header)))

/-- destroy as a host operation: the bus and all its state cease to exist (44_host_interface.md R136). -/
def performDestroy (s : State) : Out :=
  .next ((({ s with phase := .destroyed } : State).withBus Bus.void).answer .nothing)

end Sys2Proof.Machine
end

