-- ==== Sys2Proof/Machine/Session.lean ====
section
/-! DEFINITION. One host operation in its session: which operations the phase admits, and what each does
(44_host_interface.md R127, R136, R137; 60_exceptions.md R153; 70_reset_and_hazards.md R166; log 10). -/

namespace Sys2Proof.Machine

/-- A transaction: its word decoded for the bus's kind, and the operation run (30_encoding.md R53, R63). -/
def performWord (word : Nat) (s : State) : Out :=
  match decode s.bus.kind word with
  | .ok i => exec i s
  | .error why => .refused (.invalidWord why)

/-- An operation of a live session. -/
def performLive (op : HostOp) (s : State) : Out :=
  match op with
  | .construct _      => .refused .sessionOpen
  | .transaction word => performWord word s
  | .query q          => performQuery q s
  | .save             => performSave s
  | .restore data     => performRestore data s
  | .debugReport      => performReport s
  | .destroy          => performDestroy s

/-- An operation before a bus exists: only construct is admitted (60_exceptions.md R153). -/
def performUnbuilt (op : HostOp) (s : State) : Out :=
  match op with
  | .construct l => performConstruct l s
  | .transaction _ | .query _ | .save | .restore _ | .debugReport | .destroy => .refused .noBus

/-- A host operation. -/
def perform (op : HostOp) (s : State) : Out :=
  match s.phase with
  | .unbuilt => performUnbuilt op s
  | .live => performLive op s
  | .destroyed => .refused .sessionEnded

/-- The host's next operation taken from `pending` and performed (44_host_interface.md R139; log 1). -/
def performNext (s : State) : Out :=
  match s.pending with
  | [] => .refused .runEnded
  | op :: rest => perform op { s with pending := rest }

end Sys2Proof.Machine
end

