-- ==== Sys2Proof/Machine/Step.lean ====
section
/-! DEFINITION. One step: one host operation, whole (20_memory.md R40; 70_reset_and_hazards.md R168). -/

namespace Sys2Proof.Machine

/-- One step of the machine. -/
def step (s : State) : Host.Outcome State Fault Refusal := performNext s

/-- `s` with the transaction of word `w` in front of the host's coming operations, which is where `step` takes its next
instruction from (log 1). -/
def State.withFetchWord (s : State) (nbits w : Nat) : State :=
  { s with pending := .transaction (w % 2 ^ nbits) :: s.pending }

end Sys2Proof.Machine
end

