-- ==== Sys2Proof/Machine/Assembler.lean ====
section
/-! DEFINITION. The spec's own written form of transactions: assembler lines and pseudo-instructions (30_encoding.md
R61, R62; D2; log 18). A line is a list of characters. -/

namespace Sys2Proof.Machine

/-- The pseudo-instructions (30_encoding.md R62). -/
inductive Pseudo where
  | ramOn
  | ramOff
  | romLo (v : Byte)
  | bankHi (v : Byte)
  | mode (m : Byte)
  | selRom (n : BitVec 7)
  | selRam (k : BitVec 2)
deriving DecidableEq, Repr

/-- The expansion of a pseudo-instruction, as words (30_encoding.md R62). -/
def expandPseudo : Pseudo → List Nat
  | .ramOn    => [writeWord 0x0000 0x0A]
  | .ramOff   => [writeWord 0x0000 0x00]
  | .romLo v  => [writeWord 0x2000 v]
  | .bankHi v => [writeWord 0x4000 v]
  | .mode m   => [writeWord 0x6000 m]
  | .selRom n => [writeWord 0x2000 ((n.extractLsb' 0 5).setWidth 8), writeWord 0x4000 ((n.extractLsb' 5 2).setWidth 8)]
  | .selRam k => [writeWord 0x6000 0x01, writeWord 0x4000 (k.setWidth 8)]

/-- A piece of an assembler line. -/
inductive Token where
  | word (cs : List Char)
  | comma
deriving DecidableEq, Repr

/-- The characters of a word read so far, newest first, as a token in front of `ts`. -/
def flushWord (acc : List Char) (ts : List Token) : List Token :=
  if acc = [] then ts else .word acc.reverse :: ts

/-- The tokens of a line: words apart by blanks, commas, and nothing after `;` (30_encoding.md R61). -/
def tokensFrom (acc : List Char) (cs : List Char) : List Token :=
  match cs with
  | [] => flushWord acc []
  | c :: rest =>
    if c = ';' then flushWord acc []
    else if c = ' ' ∨ c = '\t' then flushWord acc (tokensFrom [] rest)
    else if c = ',' then flushWord acc (.comma :: tokensFrom [] rest)
    else tokensFrom (c :: acc) rest

/-- The value of a digit in a base. -/
def digitValue (base : Nat) (c : Char) : Option Nat :=
  let n := c.toNat
  let v := if 48 ≤ n ∧ n ≤ 57 then n - 48 else if 65 ≤ n ∧ n ≤ 70 then n - 55 else if 97 ≤ n ∧ n ≤ 102 then n - 87 else 16
  if v < base then some v else none

/-- The value of a digit sequence in a base. -/
def digitsValue (base : Nat) (acc : Nat) (cs : List Char) : Option Nat :=
  match cs with
  | [] => some acc
  | c :: rest =>
    match digitValue base c with
    | some v => digitsValue base (acc * base + v) rest
    | none => none

/-- A number below `bound`: `0x` hexadecimal or decimal (30_encoding.md R61). -/
def numberBelow (bound : Nat) (cs : List Char) : Option Nat :=
  let n := match cs with
    | '0' :: 'x' :: d :: rest => digitsValue 16 0 (d :: rest)
    | d :: rest => digitsValue 10 0 (d :: rest)
    | [] => none
  match n with
  | some v => if v < bound then some v else none
  | none => none

/-- A pseudo-instruction with no operand. -/
def plainPseudo (name : List Char) : Option Pseudo :=
  if name = ['R', 'A', 'M', 'O', 'N'] then some .ramOn
  else if name = ['R', 'A', 'M', 'O', 'F', 'F'] then some .ramOff
  else none

/-- The words of a line `<name> <number>`: RD, or a pseudo-instruction with an operand. -/
def assembleUnary (name arg : List Char) : Option (List Nat) :=
  if name = ['R', 'D'] then (numberBelow (2 ^ 16) arg).map (fun a => [readWord (BitVec.ofNat 16 a)])
  else if name = ['R', 'O', 'M', 'L', 'O'] then (numberBelow (2 ^ 8) arg).map (fun v => expandPseudo (.romLo (BitVec.ofNat 8 v)))
  else if name = ['B', 'A', 'N', 'K', 'H', 'I'] then
    (numberBelow (2 ^ 8) arg).map (fun v => expandPseudo (.bankHi (BitVec.ofNat 8 v)))
  else if name = ['M', 'O', 'D', 'E'] then (numberBelow (2 ^ 8) arg).map (fun v => expandPseudo (.mode (BitVec.ofNat 8 v)))
  else if name = ['S', 'E', 'L', 'R', 'O', 'M'] then
    (numberBelow (2 ^ 7) arg).map (fun n => expandPseudo (.selRom (BitVec.ofNat 7 n)))
  else if name = ['S', 'E', 'L', 'R', 'A', 'M'] then
    (numberBelow (2 ^ 2) arg).map (fun k => expandPseudo (.selRam (BitVec.ofNat 2 k)))
  else none

/-- The word of `WR <addr>, <value>` (30_encoding.md R61). -/
def assembleWrite (arg value : List Char) : Option (List Nat) :=
  match numberBelow (2 ^ 16) arg, numberBelow (2 ^ 8) value with
  | some a, some d => some [writeWord (BitVec.ofNat 16 a) (BitVec.ofNat 8 d)]
  | _, _ => none

/-- The words of one line; none where the line is no line of the syntax. A line of blanks and comment has no word
(30_encoding.md R61, R62). -/
def assembleLine (line : List Char) : Option (List Nat) :=
  match tokensFrom [] line with
  | [] => some []
  | [.word name] => (plainPseudo name).map expandPseudo
  | [.word name, .word arg] => assembleUnary name arg
  | [.word name, .word arg, .comma, .word value] => if name = ['W', 'R'] then assembleWrite arg value else none
  | _ => none

/-- The words of a program, one transaction or pseudo-instruction a line (30_encoding.md R61). -/
def assemble (lines : List (List Char)) : Option (List Nat) :=
  match lines with
  | [] => some []
  | line :: rest =>
    match assembleLine line, assemble rest with
    | some ws, some more => some (ws ++ more)
    | _, _ => none

/-- The host operations of a program's words. -/
def issueWords (ws : List Nat) : List HostOp := ws.map HostOp.transaction

end Sys2Proof.Machine
end

