-- ==== Sys2Proof/Safety.lean ====
section
/-! DEFINITION. The invariant of a session and the words the statements use: the cell an address reaches, the byte a
read of it shows, a bus without its registers. -/

namespace Sys2Proof.Machine

/-- The register invariants (10_state.md R27, R28, R29) and the idle registers of a None controller (R20). -/
abbrev Bus.registersLegal (b : Bus) : Prop :=
  b.low5 ≠ 0 ∧ (b.bankingMode = .ramBanking → b.high2 = 0) ∧ (b.bankingMode = .romBanking → b.ramBankSelector = 0) ∧
  (b.kind = .none →
    b.low5 = 1 ∧ b.high2 = 0 ∧ b.ramBankSelector = 0 ∧ b.bankingMode = .romBanking ∧ b.ramWriteEnabled = false)

/-- One writable array holds an array of its size, in canonical form (10_state.md R23, R25). -/
abbrev Bus.regionLegal (b : Bus) (r : Region) : Prop := (b.region r).wf ∧ (b.region r).below (b.regionBytes r)

/-- The storage arrays are arrays of their sizes, in canonical form, and the ROM has a bank (00_scope.md R6; 10_state.md
R22, R23, R25). -/
abbrev Bus.storageLegal (b : Bus) : Prop :=
  1 ≤ b.romBanks ∧ b.image.wf ∧ b.regionLegal .xram ∧ b.regionLegal .vram ∧ b.regionLegal .wram ∧ b.regionLegal .hram

/-- The configuration is one that 00_scope.md R7 admits, and LOGO_REF has 48 bytes (R9). -/
abbrev Bus.configLegal (b : Bus) : Prop :=
  (b.kind = .none → b.ramSize = .absent) ∧ (b.battery = true → b.ramSize ≠ .absent) ∧ b.logoRef.length = 48

/-- The header is the one parsed from the ROM, and its title is valid text (10_state.md R26; 40_header.md R69). -/
abbrev Bus.headerLegal (b : Bus) : Prop := b.header = headerOf b.logoRef b.image ∧ validUtf8 b.header.title = true

/-- The invariant of a bus. -/
abbrev Bus.Inv (b : Bus) : Prop := b.registersLegal ∧ b.storageLegal ∧ b.configLegal ∧ b.headerLegal

/-- The invariant of the machine: while a session is live, its bus is legal. -/
abbrev State.Inv (s : State) : Prop := s.phase = .live → s.bus.Inv

/-- The writable cell a bus address reaches; none in ROM, in a RAM window with no RAM and in the unhandled ranges
(20_memory.md R36, R43). -/
def Bus.cellOf (b : Bus) (a : Addr) : Option (Region × Nat) :=
  if Addr.within a 0x8000 0x9FFF then some (.vram, offsetFrom 0x8000 a)
  else if Addr.within a 0xA000 0xBFFF then
    if b.ramSize = .absent then none else some (.xram, b.ramPhys a)
  else if Addr.within a 0xC000 0xDFFF then some (.wram, offsetFrom 0xC000 a)
  else if Addr.isEcho a then some (.wram, offsetFrom 0xE000 a)
  else if Addr.within a 0xFF80 0xFFFE then some (.hram, offsetFrom 0xFF80 a)
  else none

/-- The address is one whose read is a draw: the RAM window of a bus with no RAM (42_mbc_read.md R103, R104). -/
def Bus.drawsAt (b : Bus) (a : Addr) : Bool := Addr.within a 0xA000 0xBFFF && decide (b.ramSize = .absent)

/-- Two buses hold the same bytes but for the cell `c` (of which nothing is said). -/
def Bus.sameBut (b b' : Bus) (c : Region × Nat) : Prop :=
  ∀ r p, (r, p) ≠ c → (b'.region r).read p = (b.region r).read p

/-- The bus with its four MBC registers at their reset values: what remains is what a None controller has (10_state.md
R20). -/
def Bus.withoutRegisters (b : Bus) : Bus :=
  { b with low5 := 1, high2 := 0, ramBankSelector := 0, bankingMode := .romBanking, ramWriteEnabled := false }

/-- The machine, its bus without registers. -/
def State.withoutRegisters (s : State) : State := s.withBus s.bus.withoutRegisters

/-- An outcome, the next state's bus without registers. -/
def outWithoutRegisters : Out → Out
  | .next s => .next s.withoutRegisters
  | .fault f => .fault f
  | .refused r => .refused r

/-- The bus `b` has the configuration, the ROM and the header of `a` (10_state.md R13). -/
def Bus.sameConfig (a b : Bus) : Prop :=
  b.kind = a.kind ∧ b.romBanks = a.romBanks ∧ b.rom = a.rom ∧ b.ramSize = a.ramSize ∧ b.battery = a.battery ∧
  b.logoRef = a.logoRef ∧ b.header = a.header

/-- The MBC registers of `b` are those of `a` (10_state.md R15 to R18). -/
def Bus.sameRegisters (a b : Bus) : Prop :=
  b.low5 = a.low5 ∧ b.high2 = a.high2 ∧ b.ramBankSelector = a.ramBankSelector ∧ b.bankingMode = a.bankingMode ∧
  b.ramWriteEnabled = a.ramWriteEnabled

/-- `t` is `s` after a write that returned Done and set byte `p` of the array `r` to `d`: that byte reads `d`, every other
byte of every writable array, the registers, the configuration with the ROM, and the model's own fields are as before. -/
def StoresOnly (s t : State) (r : Region) (p : Nat) (d : Byte) : Prop :=
  t.phase = s.phase ∧ t.pending = s.pending ∧ t.draws = s.draws ∧ t.shown = s.shown ++ [.done] ∧
  s.bus.sameConfig t.bus ∧ s.bus.sameRegisters t.bus ∧ (t.bus.region r).read p = d ∧ s.bus.sameBut t.bus (r, p)

/-- The result of a transaction: a byte, Done or the unhandled-region signal (00_scope.md section 4). -/
def Response.ofTransaction : Response → Bool
  | .byte _ | .done | .unhandled => true
  | .bus | .nothing | .dump _ | .answer _ | .report _ _ | .error _ => false

/-- A response that surfaces a recovered condition (60_exceptions.md R145, R146). -/
def Response.surfacesRecovered (r : Response) : Bool :=
  decide (r = .error .outOfRangeBank) || decide (r = .error .ramWriteDisabled)

end Sys2Proof.Machine
end

