-- ==== Sys2Proof/Certificates/Slice0/Obligations.lean ====
section
/-! DEFINITION. The statements about the model, one definition each. A statement that rests on a decision the spec marks
as its own (D<n> of 92_eei_decisions.md) or on an entry of the assumption log says so. -/

open Sys2Proof Sys2Proof.Machine

/-! ### Encoding -/

/-- Decoding the word of a well-formed instruction gives it back, for every kind, operation, address and value
(30_encoding.md section 2 and R63; the encoding is the spec's own, D2). -/
def Obligations.DecodeOfEncodeIsTheInstruction : Prop :=
  ∀ (k : Kind) (i : Instr), i.wellFormed k = true → decode k (encode i) = .ok i

/-- What the decoder reads is an operation of the kind with its address in range, and encodes to the word it was read
from (30_encoding.md section 3; D2). -/
def Obligations.DecodedInstructionIsWellFormedAndEncodesBack : Prop :=
  ∀ (k : Kind) (w : Nat) (i : Instr), decode k w = .ok i → i.wellFormed k = true ∧ encode i = w

/-- The decoder, which follows the router, and the opcode table's match/mask rows agree on every 25-bit word: exactly one
row covers a word the decoder reads, and it names the operation; no row covers a word it refuses (30_encoding.md section
3, opcode_table.json; D2, D3). -/
def Obligations.DecoderAgreesWithTheOpcodeTable : Prop :=
  ∀ (k : Kind) (w : Nat), w < 2 ^ 25 →
    (opcodeTable.filter (fun r => r.covers k w)).map (fun r => r.op) =
      match decode k w with
      | .ok i => [i.op]
      | .error _ => []

/-- Which words spell no transaction, and under which name a live session's step refuses each (30_encoding.md section 2;
D3). -/
def Obligations.WordsThatSpellNoTransactionAreRefused : Prop :=
  (∀ (k : Kind) (w : Nat),
    (decode k w = .error .bitsAboveWord ↔ 2 ^ 25 ≤ w) ∧
    (decode k w = .error .readWithValue ↔ w < 2 ^ 24 ∧ w % 256 ≠ 0) ∧
    ((∃ i, decode k w = .ok i) ↔ w < 2 ^ 25 ∧ (2 ^ 24 ≤ w ∨ w % 256 = 0))) ∧
  (∀ (s : State) (rest : List HostOp) (w : Nat), s.phase = .live → s.pending = .transaction w :: rest →
    (2 ^ 25 ≤ w → step s = .refused (.invalidWord .bitsAboveWord)) ∧
    (w < 2 ^ 24 → w % 256 ≠ 0 → step s = .refused (.invalidWord .readWithValue)))

/-- Words written out from the encoding (95_test_vectors.md section 2 and opcode_table.json): one of each family. -/
def Obligations.SpelledOutWordsDecode : Prop :=
  decode .mbc1 0x1200005 = .ok (.wrRomlo 0x2000 0x05) ∧ decode .none 0x0400000 = .ok (.rdRomxNone 0x4000) ∧
  decode .mbc1 0x0400000 = .ok (.rdRomxMbc1 0x4000) ∧ decode .mbc1 0x0400001 = .error .readWithValue ∧
  decode .none 0x2000000 = .error .bitsAboveWord ∧ decode .mbc1 0x1FFFFFF = .ok (.wrUnh 0xFFFF 0xFF) ∧
  decode .mbc1 0x0FFFE00 = .ok (.rdHram 0xFFFE) ∧ decode .none 0x1000000 = .ok (.wrCtrlNone 0x0000 0x00) ∧
  decode .none 0x0FDFF00 = .ok (.rdEcho 0xFDFF) ∧ decode .mbc1 0x0FF7F00 = .ok (.rdUnh 0xFF7F) ∧
  decode .mbc1 0x1A1235A = .ok (.wrXramMbc1 0xA123 0x5A)

/-! ### The step -/

/-- A live session's step on a transaction whose word decodes to `i` is `exec i` at that state, the operation taken from
`pending` and nothing else around it (44_host_interface.md R129, 30_encoding.md R53 and R63; the list of coming
operations is the model's, log 1). -/
def Obligations.StepRunsTheDecodedInstruction : Prop :=
  ∀ (s : State) (rest : List HostOp) (w : Nat) (i : Instr),
    s.phase = .live → s.pending = .transaction w :: rest → decode s.bus.kind w = .ok i →
    step s = exec i { s with pending := rest }

/-- A transaction on a legal bus answers in one step, at every address and with every value: a read gives a byte or the
unhandled signal, a write gives Done or the signal, and the signal comes exactly from the unhandled ranges
(43_bus_router.md R121, R122 and R123, 20_memory.md R43). That ignored and discarded writes give Done is the spec's
decision D32 (log 16), the signal's form D21; `pending` and `shown` are the model's lists (log 1, log 2). -/
def Obligations.EveryTransactionAnswers : Prop :=
  ∀ (s : State) (rest : List HostOp) (w : Nat) (i : Instr),
    s.phase = .live → s.bus.Inv → s.pending = .transaction w :: rest → decode s.bus.kind w = .ok i →
    ∃ t r, step s = .next t ∧ t.phase = .live ∧ t.pending = rest ∧ t.shown = s.shown ++ [r] ∧
      (i.value? = none → r = .unhandled ∨ ∃ v, r = .byte v) ∧
      (i.value? ≠ none → r = .unhandled ∨ r = .done) ∧
      (r = .unhandled ↔ (0xFE00 ≤ i.addr.toNat ∧ i.addr.toNat ≤ 0xFF7F) ∨ i.addr.toNat = 0xFFFF)

/-- No step from a legal state is a fault, whatever the host asks (93_implementation_defined.md section 1; log 7). -/
def Obligations.NoStepFaults : Prop :=
  ∀ (s : State) (f : Fault), s.Inv → step s ≠ .fault f

/-- Every operation that a live session admits completes in one step with one response: a transaction that decodes, and
every host operation but construct. That each completes in one step is 70_reset_and_hazards.md R168, which the spec
derives; which operations a live session admits is the model's reading of the session (log 10), and that each takes the
first of `pending` and adds one response to `shown`, restore and destroy too, is the model's two lists (log 1, log 2). -/
def Obligations.EveryOperationCompletesInOneStep : Prop :=
  ∀ (s : State) (op : HostOp) (rest : List HostOp),
    s.phase = .live → s.bus.Inv → s.pending = op :: rest →
    (∀ l, op ≠ .construct l) → (∀ w, op = .transaction w → ∃ i, decode s.bus.kind w = .ok i) →
    ∃ t r, step s = .next t ∧ t.pending = rest ∧ t.shown = s.shown ++ [r]

/-- A step takes exactly the first of the coming operations and gives exactly one response (20_memory.md section 2,
Atomicity; log 1 and log 2, the model's lists). -/
def Obligations.OneStepIsOneOperation : Prop :=
  ∀ (s t : State), step s = .next t → ∃ op r, s.pending = op :: t.pending ∧ t.shown = s.shown ++ [r]

/-! ### Invariants -/

/-- Every step keeps the invariant: the register laws (10_state.md R27 to R29, R20), the arrays in canonical form and
inside their sizes (log 5), the configuration, and the header as parsed. -/
def Obligations.EveryStepKeepsTheInvariant : Prop :=
  ∀ (s t : State), s.Inv → step s = .next t → t.Inv

/-- The machine after reset meets the invariant (10_state.md section 4; the launch of State.reset is log 4). -/
def Obligations.ResetMeetsTheInvariant : Prop :=
  State.reset.Inv

/-- Every bus that construct builds, whatever the launch, meets the invariant (10_state.md section 4: "reachable from
construction"; the register values are the spec's decision D7). -/
def Obligations.ConstructedBusMeetsTheInvariant : Prop :=
  ∀ (l : Launch) (b : Bus), construct l = .bus b → b.Inv

/-- Configuration, ROM and header never change while the session lives (41_mbc_write.md R92 and
70_reset_and_hazards.md R167, which the spec derives). -/
def Obligations.NoStepChangesTheRomOrTheConfiguration : Prop :=
  ∀ (s t : State), s.phase = .live → step s = .next t → t.phase = .live → s.bus.sameConfig t.bus

/-- The recovered conditions OutOfRangeBank and RamWriteDisabled are never surfaced: no step gives one as a response
(60_exceptions.md section 2; that they leave no trace is D25). -/
def Obligations.RecoveredConditionsNeverSurface : Prop :=
  ∀ (s t : State), (∀ r ∈ s.shown, r.surfacesRecovered = false) → step s = .next t →
    ∀ r ∈ t.shown, r.surfacesRecovered = false

/-- Two canonical arrays that read alike are the same list of cells (log 5: the sparse form is the model's). -/
def Obligations.CanonicalMemoriesAreEqualByTheirBytes : Prop :=
  ∀ (m n : Memory), m.wf → n.wf → (∀ p, m.read p = n.read p) → m = n

/-! ### MBC reads -/

/-- RD.ROM0 gives ROM bank 0 and changes nothing; no register and no kind enters (42_mbc_read.md R98, R110). -/
def Obligations.LowWindowIsRomBankZero : Prop :=
  ∀ (s : State) (a : Addr), a.toNat < 0x4000 → 1 ≤ s.bus.romBanks →
    exec (.rdRom0 a) s = .next { s with shown := s.shown ++ [.byte (s.bus.rom.read a.toNat)] }

/-- RD.ROMX.MBC1: the bank is assembled, remapped and reduced as 42_mbc_read.md R99 says, in plain arithmetic, and the
byte is that bank's at the address's offset (R100); nothing changes. -/
def Obligations.HighWindowShowsTheEffectiveBank : Prop :=
  ∀ (s : State) (a : Addr), 0x4000 ≤ a.toNat → a.toNat < 0x8000 → 1 ≤ s.bus.romBanks →
    ∀ h n bank : Nat,
      h = (if s.bus.bankingMode = .ramBanking then 0 else s.bus.high2.toNat) →
      n = h * 32 + s.bus.low5.toNat →
      bank = (if n = 0x00 ∨ n = 0x20 ∨ n = 0x40 ∨ n = 0x60 then n + 1 else n) % s.bus.romBanks →
      exec (.rdRomxMbc1 a) s =
        .next { s with shown := s.shown ++ [.byte (s.bus.rom.read (bank * 0x4000 + (a.toNat - 0x4000)))] }

/-- RD.ROMX.NONE: bank 1 where there is one, bank 0 for a one-bank ROM (42_mbc_read.md section 3; the one-bank case is
the spec's decision D31); nothing changes. -/
def Obligations.NoneHighWindowIsBankOne : Prop :=
  ∀ (s : State) (a : Addr), 0x4000 ≤ a.toNat → a.toNat < 0x8000 →
    (2 ≤ s.bus.romBanks →
      exec (.rdRomxNone a) s = .next { s with shown := s.shown ++ [.byte (s.bus.rom.read a.toNat)] }) ∧
    (s.bus.romBanks = 1 →
      exec (.rdRomxNone a) s = .next { s with shown := s.shown ++ [.byte (s.bus.rom.read (a.toNat - 0x4000))] })

/-- RD.XRAM.MBC1 with RAM, for each RAM size, the offset in plain arithmetic: four banks of 8 KiB, one bank of 8 KiB
whatever the selector, 2 KiB repeated (42_mbc_read.md section 4; the two small sizes are the spec's decision D13);
nothing changes. -/
def Obligations.RamWindowReadsTheSelectedBank : Prop :=
  ∀ (s : State) (a : Addr), 0xA000 ≤ a.toNat → a.toNat < 0xC000 →
    (s.bus.ramSize = .kib32 → exec (.rdXramMbc1 a) s =
      .next { s with shown := s.shown ++
        [.byte (s.bus.xram.read (s.bus.ramBankSelector.toNat * 0x2000 + (a.toNat - 0xA000)))] }) ∧
    (s.bus.ramSize = .kib8 → exec (.rdXramMbc1 a) s =
      .next { s with shown := s.shown ++ [.byte (s.bus.xram.read (a.toNat - 0xA000))] }) ∧
    (s.bus.ramSize = .kib2 → exec (.rdXramMbc1 a) s =
      .next { s with shown := s.shown ++ [.byte (s.bus.xram.read ((a.toNat - 0xA000) % 0x800))] })

/-- A RAM-window read gives the same byte whatever the write-enable latch holds (42_mbc_read.md R105). -/
def Obligations.RamWindowReadIsNotGatedByTheLatch : Prop :=
  ∀ (s : State) (a : Addr) (latch : Bool), 0xA000 ≤ a.toNat → a.toNat < 0xC000 → s.bus.ramSize ≠ .absent →
    ∃ v, exec (.rdXramMbc1 a) s = .next { s with shown := s.shown ++ [.byte v] } ∧
      exec (.rdXramMbc1 a) { s with bus := { s.bus with ramWriteEnabled := latch } } =
        .next { s with bus := { s.bus with ramWriteEnabled := latch }, shown := s.shown ++ [.byte v] }

/-- A RAM window with no RAM answers a draw, a fresh one at every read, and changes nothing of the bus (42_mbc_read.md
section 4; D11, D12). The draw is the free value Config.openBus at the counter (log 3): the statement holds for every
value of it. -/
def Obligations.RamWindowWithoutRamDraws : Prop :=
  ∀ (s : State) (a : Addr),
    (s.bus.ramSize = .absent → exec (.rdXramMbc1 a) s =
      .next { s with draws := s.draws + 1, shown := s.shown ++ [.byte (Config.openBus s.draws)] }) ∧
    exec (.rdXramNone a) s =
      .next { s with draws := s.draws + 1, shown := s.shown ++ [.byte (Config.openBus s.draws)] }

/-- A read of any region, live and legal, leaves every field of the bus as it was (42_mbc_read.md R108 and
20_memory.md R41, which the spec derives). -/
def Obligations.ReadsLeaveTheBusAsItWas : Prop :=
  ∀ (s : State) (rest : List HostOp) (a : Addr),
    s.phase = .live → s.bus.Inv → s.pending = .transaction (readWord a) :: rest →
    ∃ t, step s = .next t ∧ t.bus = s.bus

/-! ### MBC writes -/

/-- WR.RAMEN: the latch is on exactly when the low nibble is 0xA; nothing else changes (41_mbc_write.md R88). -/
def Obligations.RamEnableSetsTheLatch : Prop :=
  ∀ (s : State) (a : Addr) (d : Byte),
    exec (.wrRamen a d) s =
      .next { s with bus := { s.bus with ramWriteEnabled := decide (d.toNat % 16 = 0xA) }, shown := s.shown ++ [.done] }

/-- WR.ROMLO: `low5` becomes the low five bits, a masked 0 stored as 1; nothing else changes (41_mbc_write.md section 2;
that the test is on the masked value is the spec's decision D4). -/
def Obligations.RomLowSetsLow5 : Prop :=
  ∀ (s : State) (a : Addr) (d : Byte),
    exec (.wrRomlo a d) s =
      .next { s with
        bus := { s.bus with low5 := BitVec.ofNat 5 (if d.toNat % 32 = 0 then 1 else d.toNat % 32) },
        shown := s.shown ++ [.done] }

/-- WR.BANKHI: the low two bits go to `high2` in RomBanking and to `ram_bank_selector` in RamBanking, never both; nothing
else changes (41_mbc_write.md section 2; that bits 7:2 are ignored is the spec's decision D5). -/
def Obligations.BankHighSetsOneOfTwoFields : Prop :=
  ∀ (s : State) (a : Addr) (d : Byte),
    (s.bus.bankingMode = .romBanking → exec (.wrBankhi a d) s =
      .next { s with bus := { s.bus with high2 := BitVec.ofNat 2 (d.toNat % 4) }, shown := s.shown ++ [.done] }) ∧
    (s.bus.bankingMode = .ramBanking → exec (.wrBankhi a d) s =
      .next { s with
        bus := { s.bus with ramBankSelector := BitVec.ofNat 2 (d.toNat % 4) }, shown := s.shown ++ [.done] })

/-- WR.MODE: an even value selects RomBanking and clears `ram_bank_selector`, an odd one RamBanking and clears `high2`;
nothing else changes (41_mbc_write.md section 2; that D[0] decides is the spec's decision D6). -/
def Obligations.ModeWriteForcesTheOtherField : Prop :=
  ∀ (s : State) (a : Addr) (d : Byte),
    (d.toNat % 2 = 0 → exec (.wrMode a d) s =
      .next { s with
        bus := { s.bus with bankingMode := .romBanking, ramBankSelector := 0 }, shown := s.shown ++ [.done] }) ∧
    (d.toNat % 2 = 1 → exec (.wrMode a d) s =
      .next { s with bus := { s.bus with bankingMode := .ramBanking, high2 := 0 }, shown := s.shown ++ [.done] })

/-- The writes a None controller ignores return Done and change nothing (41_mbc_write.md sections 3 and 4; D11, D32). -/
def Obligations.NoneControllerIgnoresWrites : Prop :=
  ∀ (s : State) (a : Addr) (d : Byte),
    exec (.wrCtrlNone a d) s = .next { s with shown := s.shown ++ [.done] } ∧
    exec (.wrXramNone a d) s = .next { s with shown := s.shown ++ [.done] }

/-- WR.XRAM.MBC1 with RAM and the latch on: one byte of `xram` is stored, at the offset in plain arithmetic, and nothing
else changes (41_mbc_write.md section 4; the offset on the small RAMs is the spec's decision D13). -/
def Obligations.EnabledRamWriteStoresOneByte : Prop :=
  ∀ (s : State) (a : Addr) (d : Byte) (size : Nat),
    0xA000 ≤ a.toNat → a.toNat < 0xC000 → s.bus.ramWriteEnabled = true → s.bus.regionLegal .xram →
    (s.bus.ramSize = .kib2 ∧ size = 0x800 ∨ s.bus.ramSize = .kib8 ∧ size = 0x2000 ∨
      s.bus.ramSize = .kib32 ∧ size = 0x8000) →
    ∃ t, exec (.wrXramMbc1 a d) s = .next t ∧
      StoresOnly s t .xram ((s.bus.ramBankSelector.toNat * 0x2000 + (a.toNat - 0xA000)) % size) d

/-- WR.XRAM.MBC1 with the latch off, or with no RAM: discarded, Done, nothing changes (41_mbc_write.md section 4,
60_exceptions.md section 2; D12, D25). -/
def Obligations.DiscardedRamWriteChangesNothing : Prop :=
  ∀ (s : State) (a : Addr) (d : Byte), (s.bus.ramWriteEnabled = false ∨ s.bus.ramSize = .absent) →
    exec (.wrXramMbc1 a d) s = .next { s with shown := s.shown ++ [.done] }

/-! ### Laws of the banks -/

/-- RomBanking, RamBanking and back: `low5` and the latch stay, `high2` and `ram_bank_selector` are 0, the mode is
RomBanking again; nothing else changes (41_mbc_write.md R96). -/
def Obligations.ModeToggleZeroesTheHighBits : Prop :=
  ∀ (s : State) (a b : Addr), s.bus.bankingMode = .romBanking →
    ∃ t, exec (.wrMode a 0x01) s = .next t ∧
      exec (.wrMode b 0x00) t = .next { s with
        bus := { s.bus with high2 := 0, ramBankSelector := 0 }, shown := s.shown ++ [.done, .done] }

/-- The bank aliasing law: in RomBanking, after a low-field write of `low` and a high-field write of `high`, the raw bank
is `n + 1` where `n = (high << 5) | low` is 0x00, 0x20, 0x40 or 0x60, and `n` otherwise (42_mbc_read.md R109). -/
def Obligations.BankAliasingLaw : Prop :=
  ∀ (s : State) (a b : Addr) (low high : Byte) (n : Nat),
    s.bus.bankingMode = .romBanking → low.toNat < 32 → high.toNat < 4 → n = high.toNat * 32 + low.toNat →
    ∃ t u, exec (.wrRomlo a low) s = .next t ∧ exec (.wrBankhi b high) t = .next u ∧
      u.bus.rawBank.toNat = if n = 0x00 ∨ n = 0x20 ∨ n = 0x40 ∨ n = 0x60 then n + 1 else n

/-- The assembled bank is never 0x00, 0x20, 0x40 or 0x60, in any state of the registers (10_state.md R30). -/
def Obligations.AssembledBankIsNeverAliased : Prop :=
  ∀ (b : Bus), b.rawBank.toNat % 0x20 ≠ 0

/-- A bank-selecting write is visible to the very next read: two steps, WR.ROMLO then a read of the high window, show the
byte of the newly selected bank (20_memory.md section 4, for the low field). -/
def Obligations.BankSwitchIsVisibleToTheNextRead : Prop :=
  ∀ (s : State) (rest : List HostOp) (a r : Addr) (d : Byte) (low bank : Nat),
    s.phase = .live → s.bus.Inv → s.bus.kind = .mbc1 → s.bus.bankingMode = .romBanking →
    0x2000 ≤ a.toNat → a.toNat < 0x4000 → 0x4000 ≤ r.toNat → r.toNat < 0x8000 →
    s.pending = .transaction (writeWord a d) :: .transaction (readWord r) :: rest →
    low = (if d.toNat % 32 = 0 then 1 else d.toNat % 32) →
    bank = (s.bus.high2.toNat * 32 + low) % s.bus.romBanks →
    ∃ t, Host.Core.run Sys2Proof.core 2 s = .next t ∧
      t.shown = s.shown ++ [.done, .byte (s.bus.rom.read (bank * 0x4000 + (r.toNat - 0x4000)))]

/-- A control write of low nibble 0xA lets the very next RAM-window write store, one of another nibble makes it leave
every RAM byte as it was; the read after it shows which (95_test_vectors.md S5, 70_reset_and_hazards.md section 3). -/
def Obligations.LatchWriteGatesTheNextRamWrite : Prop :=
  ∀ (s : State) (a c : Addr) (e d : Byte),
    a.toNat < 0x2000 → 0xA000 ≤ c.toNat → c.toNat < 0xC000 →
    s.phase = .live → s.bus.Inv → s.bus.kind = .mbc1 → s.bus.ramSize ≠ .absent →
    s.pending = [.transaction (writeWord a e), .transaction (writeWord c d), .transaction (readWord c)] →
    ∃ t, Host.Core.run Sys2Proof.core 3 s = .next t ∧
      (e.toNat % 16 = 0xA → t.shown = s.shown ++ [.done, .done, .byte d]) ∧
      (e.toNat % 16 ≠ 0xA → t.bus.xram = s.bus.xram ∧
        t.shown = s.shown ++ [.done, .done, .byte (s.bus.xram.read (s.bus.ramPhys c))])

/-- The written forms SELROM and SELRAM do what 30_encoding.md section 3 says of them on MBC1: SELROM in RomBanking,
SELRAM in either mode (the pseudo-instructions are the spec's own, D2). -/
def Obligations.SelectorPseudoInstructions : Prop :=
  ∀ (s : State) (n : BitVec 7) (k : BitVec 2),
    s.phase = .live → s.bus.kind = .mbc1 →
    (s.bus.bankingMode = .romBanking → s.pending = issueWords (expandPseudo (.selRom n)) →
      ∃ t, Host.Core.run Sys2Proof.core 2 s = .next t ∧
        t.bus.rawBank.toNat = (if n.toNat % 0x20 = 0 then n.toNat + 1 else n.toNat)) ∧
    (s.pending = issueWords (expandPseudo (.selRam k)) →
      ∃ t, Host.Core.run Sys2Proof.core 2 s = .next t ∧
        t.bus.bankingMode = .ramBanking ∧ t.bus.ramBankSelector = k)

/-! ### The router's regions -/

/-- RD.VRAM, RD.WRAM, RD.ECHO and RD.HRAM give the byte of their array at the address's offset and change nothing
(43_bus_router.md R113, R115, R117, R119). -/
def Obligations.RegionReadsGiveTheCell : Prop :=
  ∀ (s : State) (a : Addr),
    (0x8000 ≤ a.toNat → a.toNat < 0xA000 → exec (.rdVram a) s =
      .next { s with shown := s.shown ++ [.byte (s.bus.vram.read (a.toNat - 0x8000))] }) ∧
    (0xC000 ≤ a.toNat → a.toNat < 0xE000 → exec (.rdWram a) s =
      .next { s with shown := s.shown ++ [.byte (s.bus.wram.read (a.toNat - 0xC000))] }) ∧
    (0xE000 ≤ a.toNat → a.toNat < 0xFE00 → exec (.rdEcho a) s =
      .next { s with shown := s.shown ++ [.byte (s.bus.wram.read (a.toNat - 0xE000))] }) ∧
    (0xFF80 ≤ a.toNat → a.toNat < 0xFFFF → exec (.rdHram a) s =
      .next { s with shown := s.shown ++ [.byte (s.bus.hram.read (a.toNat - 0xFF80))] })

/-- WR.VRAM, WR.WRAM, WR.ECHO and WR.HRAM store one byte of their array at the address's offset and change nothing else
(43_bus_router.md R114, R116, R120). -/
def Obligations.RegionWritesStoreOneByte : Prop :=
  ∀ (s : State) (a : Addr) (d : Byte),
    s.bus.regionLegal .vram → s.bus.regionLegal .wram → s.bus.regionLegal .hram →
    (0x8000 ≤ a.toNat → a.toNat < 0xA000 →
      ∃ t, exec (.wrVram a d) s = .next t ∧ StoresOnly s t .vram (a.toNat - 0x8000) d) ∧
    (0xC000 ≤ a.toNat → a.toNat < 0xE000 →
      ∃ t, exec (.wrWram a d) s = .next t ∧ StoresOnly s t .wram (a.toNat - 0xC000) d) ∧
    (0xE000 ≤ a.toNat → a.toNat < 0xFE00 →
      ∃ t, exec (.wrEcho a d) s = .next t ∧ StoresOnly s t .wram (a.toNat - 0xE000) d) ∧
    (0xFF80 ≤ a.toNat → a.toNat < 0xFFFF →
      ∃ t, exec (.wrHram a d) s = .next t ∧ StoresOnly s t .hram (a.toNat - 0xFF80) d)

/-- A byte written through the echo is read in work RAM 0x2000 lower, and the other way round (43_bus_router.md R118). -/
def Obligations.EchoAndWorkRamAreTheSameCells : Prop :=
  ∀ (s : State) (a c : Addr) (d : Byte),
    s.bus.regionLegal .wram → 0xE000 ≤ a.toNat → a.toNat < 0xFE00 → c.toNat = a.toNat - 0x2000 →
    (∃ t, exec (.wrEcho a d) s = .next t ∧ StoresOnly s t .wram (a.toNat - 0xE000) d ∧
      exec (.rdWram c) t = .next { t with shown := t.shown ++ [.byte d] }) ∧
    (∃ t, exec (.wrWram c d) s = .next t ∧
      exec (.rdEcho a) t = .next { t with shown := t.shown ++ [.byte d] })

/-- The echo covers `wram[0x0000 .. 0x1DFF]` only: each of those cells has an echo address, and no write at or above
0xE000 touches a cell from 0x1E00 on (43_bus_router.md R124, which the spec derives). -/
def Obligations.EchoCoversTheFirst0x1E00Cells : Prop :=
  (∀ (s : State) (p : Nat), p < 0x1E00 →
    ∃ a : Addr, 0xE000 ≤ a.toNat ∧ a.toNat < 0xFE00 ∧
      exec (.rdEcho a) s = .next { s with shown := s.shown ++ [.byte (s.bus.wram.read p)] }) ∧
  (∀ (s t : State) (a : Addr) (d : Byte) (p : Nat), 0xE000 ≤ a.toNat → 0x1E00 ≤ p →
    performWord (writeWord a d) s = .next t → t.bus.wram.read p = s.bus.wram.read p)

/-- At every unhandled address the operation is RD.UNH or WR.UNH, which returns the signal and changes nothing
(43_bus_router.md section 5; that a write changes nothing is the spec's decision D21). -/
def Obligations.UnhandledAccessesSignalAndChangeNothing : Prop :=
  ∀ (s : State) (a : Addr) (d : Byte), (0xFE00 ≤ a.toNat ∧ a.toNat ≤ 0xFF7F) ∨ a.toNat = 0xFFFF →
    exec (.rdUnh a) s = .next { s with shown := s.shown ++ [.unhandled] } ∧
    exec (.wrUnh a d) s = .next { s with shown := s.shown ++ [.unhandled] } ∧
    performWord (readWord a) s = .next { s with shown := s.shown ++ [.unhandled] } ∧
    performWord (writeWord a d) s = .next { s with shown := s.shown ++ [.unhandled] }

/-! ### Whole-machine rules -/

/-- A write changes only what its address may change: below 0x8000 no stored byte, elsewhere no register and no byte but
the addressed cell; never the configuration (20_memory.md section 2, Side effects; D21). -/
def Obligations.WritesHaveNoOtherSideEffect : Prop :=
  ∀ (s : State) (a : Addr) (d : Byte), s.bus.Inv →
    ∃ t, performWord (writeWord a d) s = .next t ∧ s.bus.sameConfig t.bus ∧
      (a.toNat < 0x8000 → ∀ r, t.bus.region r = s.bus.region r) ∧
      (0x8000 ≤ a.toNat → s.bus.sameRegisters t.bus ∧
        ∀ r p, s.bus.cellOf a ≠ some (r, p) → (t.bus.region r).read p = (s.bus.region r).read p)

/-- Each read returns the value the most recent write to the same storage cell left there, whichever addresses the two
used: after a write that stores, every address of that cell reads the value and every other cell reads as before
(the law of 20_memory.md section 4 for one write and one read after it). Which addresses share a cell of a 2 KiB or 8 KiB
RAM is the spec's decision D13 (log 16). -/
def Obligations.ReadReturnsTheMostRecentWrite : Prop :=
  ∀ (s : State) (a : Addr) (d : Byte) (c : Region × Nat), s.bus.Inv →
    s.bus.cellOf a = some c → (c.1 = .xram → s.bus.ramWriteEnabled = true) →
    ∃ t, performWord (writeWord a d) s = .next t ∧
      ∀ (e : Addr) (q : Region × Nat), s.bus.cellOf e = some q →
        ∃ u, performWord (readWord e) t = .next u ∧
          u.shown = s.shown ++ [.done, .byte (if q = c then d else (s.bus.region q.1).read q.2)]

/-- A read repeated with nothing between answers the same, but where it draws; a write repeated leaves the bus as one
write does (20_memory.md R42, which the spec derives). -/
def Obligations.RepeatedTransactionsAreIdempotent : Prop :=
  ∀ (s : State), s.bus.Inv →
    (∀ a : Addr, s.bus.drawsAt a = false →
      ∃ r, performWord (readWord a) s = .next { s with shown := s.shown ++ [r] } ∧
        ∃ t, performWord (readWord a) { s with shown := s.shown ++ [r] } = .next t ∧
          t.shown = s.shown ++ [r, r] ∧ t.bus = s.bus) ∧
    (∀ (a : Addr) (d : Byte),
      ∃ t u, performWord (writeWord a d) s = .next t ∧ performWord (writeWord a d) t = .next u ∧ u.bus = t.bus)

/-- The registers of a None controller are not observable: two machines that agree but for them go on agreeing but for
them, with the same responses, faults and refusals (10_state.md R20, which the spec
derives). -/
def Obligations.NoneRegistersAreNotObservable : Prop :=
  ∀ (s t : State), s.phase = .live → s.bus.kind = .none → s.withoutRegisters = t.withoutRegisters →
    outWithoutRegisters (step s) = outWithoutRegisters (step t)

/-! ### The header -/

/-- The header checksum is the loop of 40_header.md R75. -/
def Obligations.HeaderChecksumIsTheRunningDifference : Prop :=
  ∀ (logoRef : List Byte) (img : Image),
    headerChecksum img = (List.range' 0x134 25).foldl (fun acc i => acc - img.byte i - 1) 0 ∧
    (headerChecksumOk (headerOf logoRef img) = true ↔ headerChecksum img = img.byte 0x14D)

/-- The global checksum is the loop of 40_header.md R76 over every offset of the image but the two checksum bytes. -/
def Obligations.GlobalChecksumIsTheSumOfTheImage : Prop :=
  ∀ (logoRef : List Byte) (img : Image), img.wf →
    globalChecksum img =
      (List.range img.size).foldl
        (fun s i => if i = 0x14E ∨ i = 0x14F then s else s + BitVec.ofNat 16 (img.byte i).toNat) 0 ∧
    (globalChecksumOk (headerOf logoRef img) = true ↔
      (globalChecksum img).toNat = (img.byte 0x14E).toNat * 256 + (img.byte 0x14F).toNat)

/-- The logo verdict, the licensee and runnability (40_header.md R77, R78, R79): the logo byte for byte, the licensee by
the sentinel, runnable exactly when the header checksum and the logo are good. -/
def Obligations.LogoLicenseeAndRunnability : Prop :=
  ∀ (logoRef : List Byte) (img : Image), logoRef.length = 48 →
    ((headerOf logoRef img).logoOk = true ↔ ∀ i, i < 48 → logoRef[i]? = some (img.byte (0x104 + i))) ∧
    (img.byte 0x14B = 0x33 →
      (headerOf logoRef img).licensee = .modern (img.byte 0x144) (img.byte 0x145)) ∧
    (img.byte 0x14B ≠ 0x33 → (headerOf logoRef img).licensee = .legacy (img.byte 0x14B)) ∧
    (isRunnable (headerOf logoRef img) = true ↔
      headerChecksum img = img.byte 0x14D ∧ ∀ i, i < 48 → logoRef[i]? = some (img.byte (0x104 + i)))

/-- Changing one byte of a good logo makes the logo bad and the image not runnable, leaves the header checksum, and moves
the global checksum by the difference of the byte (40_header.md section 3, the corner case of the logo check;
90_conflicts.md C8). -/
def Obligations.ChangedLogoByteIsNotRunnable : Prop :=
  ∀ (logoRef : List Byte) (img img' : Image) (p : Nat) (v : Byte),
    img.wf → 0x134 ≤ img.size → 0x104 ≤ p → p < 0x134 → v ≠ img.byte p → logoMatches logoRef img = true →
    img' = { img with bytes := img.bytes.write p v } →
    logoMatches logoRef img' = false ∧ isRunnable (headerOf logoRef img') = false ∧
    headerChecksum img' = headerChecksum img ∧
    globalChecksum img' = globalChecksum img - (img.byte p).setWidth 16 + v.setWidth 16

/-- The title is the region's part before the first 0x00 less the trailing bytes of 0x80 or more, and this determines it
(40_header.md section 1; the order of the two cuts is the spec's decision D18). -/
def Obligations.TitleIsCutAtNullAndStripped : Prop :=
  ∀ (img : Image), ∃ pad tail : List Byte,
    img.bytesAt 0x134 16 = titleOf img ++ pad ++ tail ∧ (∀ b ∈ titleOf img ++ pad, b ≠ 0x00) ∧
    (∀ b ∈ pad, 0x80 ≤ b.toNat) ∧ (tail = [] ∨ tail.head? = some 0x00) ∧
    (∀ b, (titleOf img).getLast? = some b → b.toNat < 0x80)

/-- "Valid text" is UTF-8: the accepted byte sequences are exactly the encodings of sequences of characters
(40_header.md section 1; that text means UTF-8 is the spec's decision D18, the encoding itself log 12). -/
def Obligations.ValidTextIsTheUtf8OfCharacters : Prop :=
  ∀ (bs : List Byte),
    validUtf8 bs = true ↔ ∃ cs : List Char, bs = cs.flatMap (fun c => (String.utf8EncodeChar c).map UInt8.toBitVec)

/-- The configuration of a header, for every cartridge-type byte and RAM size code (40_header.md section 4; the tables
are the spec's decisions D14 and D15). -/
def Obligations.ConfigurationOfTheTypeAndRamBytes : Prop :=
  ∀ (h : Header) (size : RamSize),
    (h.cartridgeType = 0x00 → configOf h = .ok ⟨.none, .absent, false⟩) ∧
    (h.cartridgeType = 0x01 → configOf h = .ok ⟨.mbc1, .absent, false⟩) ∧
    (3 < h.cartridgeType.toNat → configOf h = .error .unsupportedControllerKind) ∧
    (h.cartridgeType = 0x02 ∨ h.cartridgeType = 0x03 → 3 < h.ramSizeByte.toNat →
      configOf h = .error .unsupportedControllerKind) ∧
    (h.ramSizeByte = 0x00 ∧ size = .absent ∨ h.ramSizeByte = 0x01 ∧ size = .kib2 ∨
      h.ramSizeByte = 0x02 ∧ size = .kib8 ∨ h.ramSizeByte = 0x03 ∧ size = .kib32 →
      (h.cartridgeType = 0x02 → configOf h = .ok ⟨.mbc1, size, false⟩) ∧
      (h.cartridgeType = 0x03 → configOf h = .ok ⟨.mbc1, size, decide (size ≠ .absent)⟩))

/-! ### Construction and the session -/

/-- A construct that nothing stops gives the state of 70_reset_and_hazards.md section 1: the image, the configuration
(supplied or the header's), the parsed header, the initial contents, and the register values that are the spec's
decision D7 (the sequence is D23, the size rule D10); and one step of an unbuilt session on it gives a live session
with that bus and the response `bus` (the phases are log 10, the lists log 1 and log 2). -/
def Obligations.ConstructGivesTheResetState : Prop :=
  ∀ (l : Launch) (c : BusConfig),
    l.wellFormed = true → 0x150 ≤ l.image.size → l.image.size % 0x4000 = 0 → validUtf8 (titleOf l.image) = true →
    (l.config? = some c ∨ l.config? = none ∧ configOf (headerOf l.logoRef l.image) = .ok c) →
    (c.kind = .none → c.ramSize = .absent) → (c.battery = true → c.ramSize ≠ .absent) →
    l.ramInit.below (ramBytes c.ramSize) →
    ∃ b, construct l = .bus b ∧
      b.kind = c.kind ∧ b.ramSize = c.ramSize ∧ b.battery = c.battery ∧ b.logoRef = l.logoRef ∧
      b.header = headerOf l.logoRef l.image ∧ b.romBanks * 0x4000 = l.image.size ∧ b.rom = l.image.bytes ∧
      b.low5.toNat = 1 ∧ b.high2.toNat = 0 ∧ b.ramBankSelector.toNat = 0 ∧ b.bankingMode = .romBanking ∧
      b.ramWriteEnabled = false ∧ b.xram = l.ramInit ∧ b.vram = l.initVram ∧ b.wram = l.initWram ∧
      b.hram = l.initHram ∧
      ∀ (s : State) (rest : List HostOp), s.phase = .unbuilt → s.pending = .construct l :: rest →
        step s = .next { s with phase := .live, bus := b, pending := rest, shown := s.shown ++ [.bus] }

/-- The construction errors and their order (60_exceptions.md section 3; the order is the spec's decision D23, the size
rule D10): of a well-formed launch, construct gives each error exactly under its condition, too short before title
before image size before controller kind, and gives no other. -/
def Obligations.ConstructionErrorsComeInOrder : Prop :=
  ∀ (l : Launch), l.wellFormed = true →
    (construct l = .error (.malformedHeader .tooShort) ↔ l.image.size < 0x150) ∧
    (construct l = .error (.malformedHeader .titleNotText) ↔
      0x150 ≤ l.image.size ∧ validUtf8 (titleOf l.image) = false) ∧
    (construct l = .error .imageSizeUnsupported ↔
      0x150 ≤ l.image.size ∧ validUtf8 (titleOf l.image) = true ∧ l.image.size % 0x4000 ≠ 0) ∧
    (construct l = .error .unsupportedControllerKind ↔
      0x150 ≤ l.image.size ∧ validUtf8 (titleOf l.image) = true ∧ l.image.size % 0x4000 = 0 ∧ l.config? = none ∧
        configOf (headerOf l.logoRef l.image) = .error .unsupportedControllerKind) ∧
    (∀ e, construct l = .error e →
      e = .malformedHeader .tooShort ∨ e = .malformedHeader .titleNotText ∨ e = .imageSizeUnsupported ∨
        e = .unsupportedControllerKind)

/-- A construct that raises gives its error and creates no bus: the session stays unbuilt and only construct is admitted
(60_exceptions.md section 3; D23). -/
def Obligations.FailedConstructCreatesNoBus : Prop :=
  ∀ (s : State) (l : Launch) (rest : List HostOp) (e : ErrorKind),
    s.phase = .unbuilt → s.pending = .construct l :: rest → construct l = .error e →
    ∃ t, step s = .next t ∧ t.phase = .unbuilt ∧ t.pending = rest ∧ t.shown = s.shown ++ [.error e] ∧
      (∀ w more, t.pending = .transaction w :: more → step t = .refused .noBus)

/-- State.reset is what the construction of log 4's launch leaves (70_reset_and_hazards.md section 1: reset is
construction; the launch itself is the model's choice, log 4 and log 5). -/
def Obligations.ResetIsTheConstructionOfItsLaunch : Prop :=
  step { State.unbuilt with pending := [.construct Launch.reset] } = .next { State.reset with shown := [.bus] }

/-- destroy ends the session, and nothing is admitted after it (44_host_interface.md section 4; D22; log 10). -/
def Obligations.NothingIsAdmittedAfterDestroy : Prop :=
  ∀ (s : State) (rest : List HostOp), s.phase = .live → s.pending = .destroy :: rest →
    ∃ t, step s = .next t ∧ t.phase = .destroyed ∧ t.pending = rest ∧ t.shown = s.shown ++ [.nothing] ∧
      ∀ op more, rest = op :: more → step t = .refused .sessionEnded

/-- On a battery-backed RAM, save gives `ram_size` bytes, byte `i` being `xram[i]`, and changes nothing; restoring a dump
of that length makes `xram` hold it byte for byte and changes nothing else; restoring what was saved changes nothing
(44_host_interface.md section 2; D22). -/
def Obligations.SaveAndRestoreAreInverse : Prop :=
  ∀ (s : State) (data : List Byte), s.bus.Inv → s.bus.battery = true →
    ∃ dump, performSave s = .next { s with shown := s.shown ++ [.dump dump] } ∧
      dump.length = ramBytes s.bus.ramSize ∧
      (∀ i, i < ramBytes s.bus.ramSize → dump[i]? = some (s.bus.xram.read i)) ∧
      performRestore dump s = .next { s with shown := s.shown ++ [.nothing] } ∧
      (data.length = ramBytes s.bus.ramSize →
        ∃ m, performRestore data s =
            .next { s with bus := { s.bus with xram := m }, shown := s.shown ++ [.nothing] } ∧
          ∀ i, i < data.length → data[i]? = some (m.read i))

/-- The errors of save and restore, and their order: NotPersistent without a battery, then SaveSizeMismatch; nothing
changes and the session goes on (44_host_interface.md section 2, 60_exceptions.md section 3; D22). -/
def Obligations.FailedSaveOrRestoreChangesNothing : Prop :=
  ∀ (s : State) (data : List Byte),
    (s.bus.battery = false →
      performSave s = .next { s with shown := s.shown ++ [.error .notPersistent] } ∧
      performRestore data s = .next { s with shown := s.shown ++ [.error .notPersistent] }) ∧
    (s.bus.battery = true → data.length ≠ ramBytes s.bus.ramSize →
      performRestore data s = .next { s with shown := s.shown ++ [.error .saveSizeMismatch] })

/-- Each of the eighteen header queries gives the field, the checksum or the verdict it asks for, from the header fixed
at construction, and on a header parsed from the ROM the field of a raw byte gives the byte of its offset (the offsets
are the spec's decision D16). The debug report holds the whole header and each of the four checks as OK exactly when it
is good, and its text is the items of a layout one after another, every query's among them: the four checks as the words
OK and FAILED, the other fields as the layout spells them, so that their values can be read from the spelling (that a
report contains a field in this sense, and the layout, are D30 and log 13). Neither changes anything but what the host is
shown (44_host_interface.md sections 1 and 3). -/
def Obligations.QueriesAndReportReadTheHeader : Prop :=
  (∀ (s : State) (q : HeaderQuery), ∃ a, performQuery q s = .next { s with shown := s.shown ++ [.answer a] } ∧
    (q = .title → a = .bytes s.bus.header.title) ∧
    (q = .manufacturer → a = .bytes s.bus.header.manufacturer) ∧
    (q = .color → a = .color s.bus.header.color) ∧
    (q = .licensee → a = .licensee s.bus.header.licensee) ∧
    (q = .superConsole → a = .superConsole s.bus.header.superConsole) ∧
    (q = .cartridgeType → a = .byte s.bus.header.cartridgeType) ∧
    (q = .romSizeByte → a = .byte s.bus.header.romSizeByte) ∧
    (q = .ramSizeByte → a = .byte s.bus.header.ramSizeByte) ∧
    (q = .region → a = .region s.bus.header.region) ∧
    (q = .version → a = .byte s.bus.header.version) ∧
    (q = .declaredHeaderChecksum → a = .byte s.bus.header.declaredHeaderChecksum) ∧
    (q = .computedHeaderChecksum → a = .byte s.bus.header.computedHeaderChecksum) ∧
    (q = .declaredGlobalChecksum → a = .half s.bus.header.declaredGlobalChecksum) ∧
    (q = .computedGlobalChecksum → a = .half s.bus.header.computedGlobalChecksum) ∧
    (q = .headerChecksumOk →
      a = .flag (decide (s.bus.header.computedHeaderChecksum = s.bus.header.declaredHeaderChecksum))) ∧
    (q = .globalChecksumOk →
      a = .flag (decide (s.bus.header.computedGlobalChecksum = s.bus.header.declaredGlobalChecksum))) ∧
    (q = .logoOk → a = .flag s.bus.header.logoOk) ∧
    (q = .isRunnable →
      a = .flag (decide (s.bus.header.computedHeaderChecksum = s.bus.header.declaredHeaderChecksum) &&
        s.bus.header.logoOk)) ∧
    (s.bus.headerLegal →
      (q = .manufacturer → a = .bytes
        [s.bus.rom.read 0x13F, s.bus.rom.read 0x140, s.bus.rom.read 0x141, s.bus.rom.read 0x142]) ∧
      (q = .cartridgeType → a = .byte (s.bus.rom.read 0x147)) ∧
      (q = .romSizeByte → a = .byte (s.bus.rom.read 0x148)) ∧
      (q = .ramSizeByte → a = .byte (s.bus.rom.read 0x149)) ∧
      (q = .version → a = .byte (s.bus.rom.read 0x14C)) ∧
      (q = .declaredHeaderChecksum → a = .byte (s.bus.rom.read 0x14D)))) ∧
  (∀ (s : State), ∃ r text, performReport s = .next { s with shown := s.shown ++ [.report r text] } ∧
    r.header = s.bus.header ∧
    (r.logo = .ok ↔ s.bus.header.logoOk = true) ∧
    (r.headerChecksum = .ok ↔ s.bus.header.computedHeaderChecksum = s.bus.header.declaredHeaderChecksum) ∧
    (r.globalChecksum = .ok ↔ s.bus.header.computedGlobalChecksum = s.bus.header.declaredGlobalChecksum) ∧
    (r.runnability = .ok ↔ r.logo = .ok ∧ r.headerChecksum = .ok) ∧
    ∃ (parts : List (String × HeaderQuery)) (last : String) (item : HeaderQuery → String),
      text = parts.foldr (fun p rest => p.1 ++ item p.2 ++ rest) last ∧
      (∀ q, q ∈ parts.map (fun p => p.2)) ∧
      item .logoOk = (if r.logo = .ok then "OK" else "FAILED") ∧
      item .headerChecksumOk = (if r.headerChecksum = .ok then "OK" else "FAILED") ∧
      item .globalChecksumOk = (if r.globalChecksum = .ok then "OK" else "FAILED") ∧
      item .isRunnable = (if r.runnability = .ok then "OK" else "FAILED") ∧
      (∀ q a, performQuery q s = .next { s with shown := s.shown ++ [.answer a] } → (∀ v, a ≠ .flag v) →
        item q = Config.debugLayout.spell q a)) ∧
  (∀ (q : HeaderQuery) (a b : HeaderAnswer), (q = .title → a.isText ∧ b.isText) →
    Config.debugLayout.spell q a = Config.debugLayout.spell q b → a = b)
end

