-- ==== Sys2Proof/Laws/Decode.lean ====
section
/-! SUPPORT. The fields of the two words of the encoding, and the range and kind of what the router names. -/

namespace Sys2Proof

theorem readWord_lt (a : Addr) : readWord a < 2 ^ 24 := by
  have := a.isLt
  unfold readWord; omega

theorem writeWord_lt (a : Addr) (d : Byte) : writeWord a d < 2 ^ 25 := by
  have := a.isLt
  have := d.isLt
  unfold writeWord; omega

theorem wordIsWrite_readWord (a : Addr) : wordIsWrite (readWord a) = false := by
  have := readWord_lt a
  exact decide_eq_false (by omega)

theorem wordIsWrite_writeWord (a : Addr) (d : Byte) : wordIsWrite (writeWord a d) = true := by
  have := a.isLt
  have := d.isLt
  exact decide_eq_true (by unfold writeWord; omega)

theorem wordAddr_readWord (a : Addr) : wordAddr (readWord a) = a := by
  simp [wordAddr, readWord]

theorem wordAddr_writeWord (a : Addr) (d : Byte) : wordAddr (writeWord a d) = a := by
  apply BitVec.eq_of_toNat_eq
  simp [wordAddr, writeWord]; omega

theorem wordValue_readWord (a : Addr) : wordValue (readWord a) = 0 := by
  apply BitVec.eq_of_toNat_eq
  simp [wordValue, readWord]

theorem wordValue_writeWord (a : Addr) (d : Byte) : wordValue (writeWord a d) = d := by
  apply BitVec.eq_of_toNat_eq
  simp [wordValue, writeWord]; omega

end Sys2Proof
end

