-- ==== Sys2Proof/Laws/Memory.lean ====
section
/-! SUPPORT. The laws of the storage arrays: read after write, the canonical form kept by every operation, and the raw
byte sequence of an array. -/

namespace Sys2Proof.Machine

@[simp] theorem Memory.read_nil (p : Nat) : Memory.read [] p = Memory.blank := rfl

theorem Memory.read_cons (c : Host.Cell) (m : Memory) (p : Nat) :
    Memory.read (c :: m) p = if c.1 = p then c.2 else Memory.read m p := rfl

theorem Memory.write_cons (c : Host.Cell) (m : Memory) (p : Nat) (v : Byte) :
    Memory.write (c :: m) p v =
      if p < c.1 then Memory.put p v (c :: m) else if p = c.1 then Memory.put p v m else c :: Memory.write m p v := rfl

/-- An offset that no cell lists reads as the blank. -/
theorem Memory.read_eq_blank (m : Memory) (p : Nat) (h : ∀ c ∈ m, c.1 ≠ p) : Memory.read m p = Memory.blank := by
  induction m with
  | nil => rfl
  | cons c m ih =>
    rw [Memory.read_cons, if_neg (h c (by simp)), ih fun e he => h e (by simp [he])]

/-- An offset at or above the array's size reads as the blank. -/
theorem Memory.read_of_below {m : Memory} {n p : Nat} (h : m.below n) (hp : n ≤ p) :
    Memory.read m p = Memory.blank :=
  Memory.read_eq_blank m p fun c hc e => by have := h c hc; omega

theorem Memory.read_put_ne (m : Memory) (p q : Nat) (v : Byte) (h : q ≠ p) :
    Memory.read (Memory.put p v m) q = Memory.read m q := by
  unfold Memory.put
  split
  · rfl
  · rw [Memory.read_cons, if_neg (Ne.symm h)]

theorem Memory.read_put_self (m : Memory) (p : Nat) (v : Byte) (h : ∀ c ∈ m, c.1 ≠ p) :
    Memory.read (Memory.put p v m) p = v := by
  unfold Memory.put
  split
  · rename_i hv; rw [Memory.read_eq_blank m p h, hv]
  · simp [Memory.read_cons]

/-- A write leaves every other byte as it was. -/
theorem Memory.read_write_ne (m : Memory) (p q : Nat) (v : Byte) (h : q ≠ p) :
    Memory.read (Memory.write m p v) q = Memory.read m q := by
  induction m with
  | nil => exact Memory.read_put_ne [] p q v h
  | cons c m ih =>
    rw [Memory.write_cons]
    split
    · exact Memory.read_put_ne _ p q v h
    · split
      · rename_i hp
        rw [Memory.read_put_ne _ p q v h, Memory.read_cons, if_neg (by omega)]
      · rw [Memory.read_cons, Memory.read_cons, ih]

/-- A byte written is the byte read. -/
theorem Memory.read_write_self (m : Memory) (p : Nat) (v : Byte) (h : m.wf) :
    Memory.read (Memory.write m p v) p = v := by
  induction m with
  | nil => exact Memory.read_put_self [] p v (by simp)
  | cons c m ih =>
    obtain ⟨hs, hb⟩ := h
    rw [List.pairwise_cons] at hs
    rw [Memory.write_cons]
    split
    · refine Memory.read_put_self _ p v fun e he => ?_
      rcases List.mem_cons.1 he with rfl | he
      · omega
      · have := hs.1 e he; omega
    · split
      · refine Memory.read_put_self _ p v fun e he => ?_
        have := hs.1 e he
        omega
      · rw [Memory.read_cons, if_neg (by omega)]
        exact ih ⟨hs.2, fun e he => hb e (by simp [he])⟩

/-- The byte at `q` after a write at `p`. -/
theorem Memory.read_write (m : Memory) (p q : Nat) (v : Byte) (h : m.wf) :
    Memory.read (Memory.write m p v) q = if q = p then v else Memory.read m q := by
  split
  · rename_i e; rw [e, Memory.read_write_self m p v h]
  · rename_i e; exact Memory.read_write_ne m p q v e

theorem Memory.put_wf {m : Memory} {p : Nat} (v : Byte) (h : m.wf) (hp : ∀ c ∈ m, p < c.1) :
    (Memory.put p v m).wf := by
  unfold Memory.put
  split
  · exact h
  · rename_i hv
    exact ⟨List.pairwise_cons.2 ⟨hp, h.1⟩, by simpa using ⟨hv, fun a b hab => h.2 (a, b) hab⟩⟩

theorem Memory.mem_put {m : Memory} {p : Nat} {v : Byte} {c : Host.Cell} (h : c ∈ Memory.put p v m) :
    c.1 = p ∨ c ∈ m := by
  unfold Memory.put at h
  split at h
  · exact .inr h
  · rcases List.mem_cons.1 h with rfl | h
    · exact .inl rfl
    · exact .inr h

theorem Memory.mem_write {m : Memory} {p : Nat} {v : Byte} {c : Host.Cell} (h : c ∈ Memory.write m p v) :
    c.1 = p ∨ c ∈ m := by
  induction m with
  | nil => exact Memory.mem_put h
  | cons e m ih =>
    rw [Memory.write_cons] at h
    split at h
    · exact Memory.mem_put h
    · split at h
      · rcases Memory.mem_put h with h | h
        · exact .inl h
        · exact .inr (by simp [h])
      · rcases List.mem_cons.1 h with rfl | h
        · exact .inr (by simp)
        · rcases ih h with h | h
          · exact .inl h
          · exact .inr (by simp [h])

/-- A write keeps the canonical form. -/
theorem Memory.write_wf {m : Memory} (p : Nat) (v : Byte) (h : m.wf) : (Memory.write m p v).wf := by
  induction m with
  | nil => exact Memory.put_wf v h (by simp)
  | cons c m ih =>
    obtain ⟨hs, hb⟩ := h
    have hs' := List.pairwise_cons.1 hs
    have htail : Memory.wf m := ⟨hs'.2, fun e he => hb e (by simp [he])⟩
    rw [Memory.write_cons]
    split
    · refine Memory.put_wf v ⟨hs, hb⟩ fun e he => ?_
      rcases List.mem_cons.1 he with rfl | he
      · assumption
      · have := hs'.1 e he; omega
    · split
      · exact Memory.put_wf v htail fun e he => by have := hs'.1 e he; omega
      · refine ⟨List.pairwise_cons.2 ⟨fun e he => ?_, (ih htail).1⟩, fun e he => ?_⟩
        · rcases Memory.mem_write he with h | h
          · omega
          · exact hs'.1 e h
        · rcases List.mem_cons.1 he with rfl | he
          · exact hb _ (by simp)
          · exact (ih htail).2 e he

/-- A write below the size keeps the array below it. -/
theorem Memory.write_below {m : Memory} {n p : Nat} (v : Byte) (h : m.below n) (hp : p < n) :
    (Memory.write m p v).below n := fun c hc => by
  rcases Memory.mem_write hc with h' | h'
  · omega
  · exact h c h'

theorem Memory.nil_wf : Memory.wf [] := ⟨List.Pairwise.nil, fun _ h => nomatch h⟩

theorem Memory.nil_below (n : Nat) : Memory.below [] n := fun _ h => nomatch h

theorem Memory.mem_ofBytesFrom {p : Nat} {bs : List Byte} {c : Host.Cell} (h : c ∈ Memory.ofBytesFrom p bs) :
    p ≤ c.1 ∧ c.1 < p + bs.length := by
  induction bs generalizing p with
  | nil => simp [Memory.ofBytesFrom] at h
  | cons b bs ih =>
    rcases Memory.mem_put h with h | h
    · simp; omega
    · have := ih h; simp; omega

theorem Memory.ofBytesFrom_wf (p : Nat) (bs : List Byte) : (Memory.ofBytesFrom p bs).wf := by
  induction bs generalizing p with
  | nil => exact Memory.nil_wf
  | cons b bs ih => exact Memory.put_wf b (ih (p + 1)) fun c hc => by have := (Memory.mem_ofBytesFrom hc).1; omega

/-- The array of a byte sequence is in canonical form. -/
theorem Memory.ofBytes_wf (bs : List Byte) : (Memory.ofBytes bs).wf := Memory.ofBytesFrom_wf 0 bs

/-- The array of a byte sequence lies below its length. -/
theorem Memory.ofBytes_below (bs : List Byte) : (Memory.ofBytes bs).below bs.length := fun c hc => by
  have := (Memory.mem_ofBytesFrom hc).2; omega

theorem Memory.read_ofBytesFrom (p i : Nat) (bs : List Byte) :
    Memory.read (Memory.ofBytesFrom p bs) (p + i) = bs.getD i Memory.blank := by
  induction bs generalizing p i with
  | nil => rfl
  | cons b bs ih =>
    cases i with
    | zero => exact Memory.read_put_self _ p b fun c hc => by have := (Memory.mem_ofBytesFrom hc).1; omega
    | succ i =>
      rw [Memory.ofBytesFrom, Memory.read_put_ne _ _ _ _ (by omega), show p + (i + 1) = p + 1 + i by omega, ih]
      rfl

/-- Byte `i` of the array of a byte sequence is byte `i` of the sequence. -/
theorem Memory.read_ofBytes (bs : List Byte) (i : Nat) :
    Memory.read (Memory.ofBytes bs) i = bs.getD i Memory.blank := by
  simpa [Memory.ofBytes] using Memory.read_ofBytesFrom 0 i bs

@[simp] theorem Memory.length_bytesAt (m : Memory) (p n : Nat) : (m.bytesAt p n).length = n := by
  simp [Memory.bytesAt]

/-- Byte `i` of a raw byte sequence of an array. -/
theorem Memory.getElem?_bytesAt (m : Memory) (p n i : Nat) (h : i < n) :
    (m.bytesAt p n)[i]? = some (Memory.read m (p + i)) := by
  simp [Memory.bytesAt, h]

end Sys2Proof.Machine
end

