-- ==== Sys2Proof/Laws/State.lean ====
section
/-! SUPPORT. One lemma per field and update of the state and of the bus, so that no later proof unfolds a record
update. -/

namespace Sys2Proof.Machine

/-! ### The host is given a response -/

@[simp] theorem State.answer_phase (s : State) (r : Response) : (s.answer r).phase = s.phase := rfl
@[simp] theorem State.answer_bus (s : State) (r : Response) : (s.answer r).bus = s.bus := rfl
@[simp] theorem State.answer_pending (s : State) (r : Response) : (s.answer r).pending = s.pending := rfl
@[simp] theorem State.answer_shown (s : State) (r : Response) : (s.answer r).shown = s.shown ++ [r] := rfl
@[simp] theorem State.answer_draws (s : State) (r : Response) : (s.answer r).draws = s.draws := rfl

/-! ### Another bus -/

@[simp] theorem State.withBus_phase (s : State) (b : Bus) : (s.withBus b).phase = s.phase := rfl
@[simp] theorem State.withBus_bus (s : State) (b : Bus) : (s.withBus b).bus = b := rfl
@[simp] theorem State.withBus_pending (s : State) (b : Bus) : (s.withBus b).pending = s.pending := rfl
@[simp] theorem State.withBus_shown (s : State) (b : Bus) : (s.withBus b).shown = s.shown := rfl
@[simp] theorem State.withBus_draws (s : State) (b : Bus) : (s.withBus b).draws = s.draws := rfl

@[simp] theorem State.withBus_self (s : State) : s.withBus s.bus = s := rfl

/-! ### The machine without registers -/

@[simp] theorem State.withoutRegisters_phase (s : State) : s.withoutRegisters.phase = s.phase := rfl
@[simp] theorem State.withoutRegisters_bus (s : State) : s.withoutRegisters.bus = s.bus.withoutRegisters := rfl
@[simp] theorem State.withoutRegisters_pending (s : State) : s.withoutRegisters.pending = s.pending := rfl
@[simp] theorem State.withoutRegisters_shown (s : State) : s.withoutRegisters.shown = s.shown := rfl
@[simp] theorem State.withoutRegisters_draws (s : State) : s.withoutRegisters.draws = s.draws := rfl

/-! ### A transaction in front of the coming operations -/

@[simp] theorem State.withFetchWord_phase (s : State) (nbits w : Nat) : (s.withFetchWord nbits w).phase = s.phase := rfl
@[simp] theorem State.withFetchWord_bus (s : State) (nbits w : Nat) : (s.withFetchWord nbits w).bus = s.bus := rfl
@[simp] theorem State.withFetchWord_pending (s : State) (nbits w : Nat) : (s.withFetchWord nbits w).pending = .transaction (w % 2 ^ nbits) :: s.pending := rfl
@[simp] theorem State.withFetchWord_shown (s : State) (nbits w : Nat) : (s.withFetchWord nbits w).shown = s.shown := rfl
@[simp] theorem State.withFetchWord_draws (s : State) (nbits w : Nat) : (s.withFetchWord nbits w).draws = s.draws := rfl

/-! ### A writable array replaced -/

@[simp] theorem Bus.setRegion_kind (b : Bus) (r : Region) (m : Memory) : (b.setRegion r m).kind = b.kind := by cases r <;> rfl
@[simp] theorem Bus.setRegion_romBanks (b : Bus) (r : Region) (m : Memory) : (b.setRegion r m).romBanks = b.romBanks := by cases r <;> rfl
@[simp] theorem Bus.setRegion_rom (b : Bus) (r : Region) (m : Memory) : (b.setRegion r m).rom = b.rom := by cases r <;> rfl
@[simp] theorem Bus.setRegion_ramSize (b : Bus) (r : Region) (m : Memory) : (b.setRegion r m).ramSize = b.ramSize := by cases r <;> rfl
@[simp] theorem Bus.setRegion_battery (b : Bus) (r : Region) (m : Memory) : (b.setRegion r m).battery = b.battery := by cases r <;> rfl
@[simp] theorem Bus.setRegion_logoRef (b : Bus) (r : Region) (m : Memory) : (b.setRegion r m).logoRef = b.logoRef := by cases r <;> rfl
@[simp] theorem Bus.setRegion_header (b : Bus) (r : Region) (m : Memory) : (b.setRegion r m).header = b.header := by cases r <;> rfl
@[simp] theorem Bus.setRegion_low5 (b : Bus) (r : Region) (m : Memory) : (b.setRegion r m).low5 = b.low5 := by cases r <;> rfl
@[simp] theorem Bus.setRegion_high2 (b : Bus) (r : Region) (m : Memory) : (b.setRegion r m).high2 = b.high2 := by cases r <;> rfl
@[simp] theorem Bus.setRegion_ramBankSelector (b : Bus) (r : Region) (m : Memory) : (b.setRegion r m).ramBankSelector = b.ramBankSelector := by cases r <;> rfl
@[simp] theorem Bus.setRegion_bankingMode (b : Bus) (r : Region) (m : Memory) : (b.setRegion r m).bankingMode = b.bankingMode := by cases r <;> rfl
@[simp] theorem Bus.setRegion_ramWriteEnabled (b : Bus) (r : Region) (m : Memory) : (b.setRegion r m).ramWriteEnabled = b.ramWriteEnabled := by cases r <;> rfl
@[simp] theorem Bus.setRegion_xram_self (b : Bus) (m : Memory) : (b.setRegion .xram m).xram = m := rfl
@[simp] theorem Bus.setRegion_vram_self (b : Bus) (m : Memory) : (b.setRegion .vram m).vram = m := rfl
@[simp] theorem Bus.setRegion_wram_self (b : Bus) (m : Memory) : (b.setRegion .wram m).wram = m := rfl
@[simp] theorem Bus.setRegion_hram_self (b : Bus) (m : Memory) : (b.setRegion .hram m).hram = m := rfl

@[simp] theorem Bus.region_setRegion_self (b : Bus) (r : Region) (m : Memory) : (b.setRegion r m).region r = m := by
  cases r <;> rfl

theorem Bus.region_setRegion_ne (b : Bus) (r q : Region) (m : Memory) (h : q ≠ r) :
    (b.setRegion r m).region q = b.region q := by
  cases r <;> cases q <;> first | rfl | exact absurd rfl h

@[simp] theorem Bus.regionBytes_setRegion (b : Bus) (r q : Region) (m : Memory) :
    (b.setRegion r m).regionBytes q = b.regionBytes q := by
  cases r <;> cases q <;> rfl

@[simp] theorem Bus.image_setRegion (b : Bus) (r : Region) (m : Memory) : (b.setRegion r m).image = b.image := by
  cases r <;> rfl

@[simp] theorem Bus.romBytes_setRegion (b : Bus) (r : Region) (m : Memory) :
    (b.setRegion r m).romBytes = b.romBytes := by
  cases r <;> rfl

/-! ### A bank-high write -/

@[simp] theorem Bus.setBankHi_kind (b : Bus) (v : BitVec 2) : (b.setBankHi v).kind = b.kind := by
  unfold Bus.setBankHi; split <;> rfl
@[simp] theorem Bus.setBankHi_romBanks (b : Bus) (v : BitVec 2) : (b.setBankHi v).romBanks = b.romBanks := by
  unfold Bus.setBankHi; split <;> rfl
@[simp] theorem Bus.setBankHi_rom (b : Bus) (v : BitVec 2) : (b.setBankHi v).rom = b.rom := by
  unfold Bus.setBankHi; split <;> rfl
@[simp] theorem Bus.setBankHi_ramSize (b : Bus) (v : BitVec 2) : (b.setBankHi v).ramSize = b.ramSize := by
  unfold Bus.setBankHi; split <;> rfl
@[simp] theorem Bus.setBankHi_battery (b : Bus) (v : BitVec 2) : (b.setBankHi v).battery = b.battery := by
  unfold Bus.setBankHi; split <;> rfl
@[simp] theorem Bus.setBankHi_logoRef (b : Bus) (v : BitVec 2) : (b.setBankHi v).logoRef = b.logoRef := by
  unfold Bus.setBankHi; split <;> rfl
@[simp] theorem Bus.setBankHi_header (b : Bus) (v : BitVec 2) : (b.setBankHi v).header = b.header := by
  unfold Bus.setBankHi; split <;> rfl
@[simp] theorem Bus.setBankHi_low5 (b : Bus) (v : BitVec 2) : (b.setBankHi v).low5 = b.low5 := by
  unfold Bus.setBankHi; split <;> rfl
@[simp] theorem Bus.setBankHi_bankingMode (b : Bus) (v : BitVec 2) : (b.setBankHi v).bankingMode = b.bankingMode := by
  unfold Bus.setBankHi; split <;> rfl
@[simp] theorem Bus.setBankHi_ramWriteEnabled (b : Bus) (v : BitVec 2) : (b.setBankHi v).ramWriteEnabled = b.ramWriteEnabled := by
  unfold Bus.setBankHi; split <;> rfl
@[simp] theorem Bus.setBankHi_xram (b : Bus) (v : BitVec 2) : (b.setBankHi v).xram = b.xram := by
  unfold Bus.setBankHi; split <;> rfl
@[simp] theorem Bus.setBankHi_vram (b : Bus) (v : BitVec 2) : (b.setBankHi v).vram = b.vram := by
  unfold Bus.setBankHi; split <;> rfl
@[simp] theorem Bus.setBankHi_wram (b : Bus) (v : BitVec 2) : (b.setBankHi v).wram = b.wram := by
  unfold Bus.setBankHi; split <;> rfl
@[simp] theorem Bus.setBankHi_hram (b : Bus) (v : BitVec 2) : (b.setBankHi v).hram = b.hram := by
  unfold Bus.setBankHi; split <;> rfl

theorem Bus.setBankHi_high2 (b : Bus) (v : BitVec 2) :
    (b.setBankHi v).high2 = if b.bankingMode = .romBanking then v else b.high2 := by
  unfold Bus.setBankHi; split <;> simp_all

theorem Bus.setBankHi_ramBankSelector (b : Bus) (v : BitVec 2) :
    (b.setBankHi v).ramBankSelector = if b.bankingMode = .romBanking then b.ramBankSelector else v := by
  unfold Bus.setBankHi; split <;> simp_all

@[simp] theorem Bus.setBankHi_region (b : Bus) (v : BitVec 2) (r : Region) :
    (b.setBankHi v).region r = b.region r := by
  cases r <;> simp [Bus.region]

@[simp] theorem Bus.setBankHi_regionBytes (b : Bus) (v : BitVec 2) (r : Region) :
    (b.setBankHi v).regionBytes r = b.regionBytes r := by
  cases r <;> simp [Bus.regionBytes]

@[simp] theorem Bus.setBankHi_image (b : Bus) (v : BitVec 2) : (b.setBankHi v).image = b.image := by
  simp [Bus.image, Bus.romBytes]

/-! ### A mode write -/

@[simp] theorem Bus.setMode_kind (b : Bus) (m : BankingMode) : (b.setMode m).kind = b.kind := by cases m <;> rfl
@[simp] theorem Bus.setMode_romBanks (b : Bus) (m : BankingMode) : (b.setMode m).romBanks = b.romBanks := by cases m <;> rfl
@[simp] theorem Bus.setMode_rom (b : Bus) (m : BankingMode) : (b.setMode m).rom = b.rom := by cases m <;> rfl
@[simp] theorem Bus.setMode_ramSize (b : Bus) (m : BankingMode) : (b.setMode m).ramSize = b.ramSize := by cases m <;> rfl
@[simp] theorem Bus.setMode_battery (b : Bus) (m : BankingMode) : (b.setMode m).battery = b.battery := by cases m <;> rfl
@[simp] theorem Bus.setMode_logoRef (b : Bus) (m : BankingMode) : (b.setMode m).logoRef = b.logoRef := by cases m <;> rfl
@[simp] theorem Bus.setMode_header (b : Bus) (m : BankingMode) : (b.setMode m).header = b.header := by cases m <;> rfl
@[simp] theorem Bus.setMode_low5 (b : Bus) (m : BankingMode) : (b.setMode m).low5 = b.low5 := by cases m <;> rfl
@[simp] theorem Bus.setMode_ramWriteEnabled (b : Bus) (m : BankingMode) : (b.setMode m).ramWriteEnabled = b.ramWriteEnabled := by cases m <;> rfl
@[simp] theorem Bus.setMode_xram (b : Bus) (m : BankingMode) : (b.setMode m).xram = b.xram := by cases m <;> rfl
@[simp] theorem Bus.setMode_vram (b : Bus) (m : BankingMode) : (b.setMode m).vram = b.vram := by cases m <;> rfl
@[simp] theorem Bus.setMode_wram (b : Bus) (m : BankingMode) : (b.setMode m).wram = b.wram := by cases m <;> rfl
@[simp] theorem Bus.setMode_hram (b : Bus) (m : BankingMode) : (b.setMode m).hram = b.hram := by cases m <;> rfl

@[simp] theorem Bus.setMode_bankingMode (b : Bus) (m : BankingMode) : (b.setMode m).bankingMode = m := by
  cases m <;> rfl

theorem Bus.setMode_high2 (b : Bus) (m : BankingMode) :
    (b.setMode m).high2 = if m = .romBanking then b.high2 else 0 := by
  cases m <;> rfl

theorem Bus.setMode_ramBankSelector (b : Bus) (m : BankingMode) :
    (b.setMode m).ramBankSelector = if m = .romBanking then 0 else b.ramBankSelector := by
  cases m <;> rfl

@[simp] theorem Bus.setMode_region (b : Bus) (m : BankingMode) (r : Region) :
    (b.setMode m).region r = b.region r := by
  cases m <;> cases r <;> rfl

@[simp] theorem Bus.setMode_regionBytes (b : Bus) (m : BankingMode) (r : Region) :
    (b.setMode m).regionBytes r = b.regionBytes r := by
  cases m <;> cases r <;> rfl

@[simp] theorem Bus.setMode_image (b : Bus) (m : BankingMode) : (b.setMode m).image = b.image := by
  cases m <;> rfl

end Sys2Proof.Machine
end

