-- ==== Sys2Proof/Laws/Ops.lean ====
section
/-! SUPPORT. One lemma for each shared operation, saying everything it can do, and from them one for `exec`. -/

namespace Sys2Proof.Machine

theorem finish_eq_next {s t : State} {b : Bus} {r : Response} (h : finish s b r = .next t) :
    t = (s.withBus b).answer r := (Host.Outcome.next.inj h).symm

@[simp] theorem finish_ne_fault (s : State) (b : Bus) (r : Response) (f : Fault) : finish s b r ≠ .fault f := nofun

@[simp] theorem finish_ne_refused (s : State) (b : Bus) (r : Response) (q : Refusal) :
    finish s b r ≠ .refused q := nofun

theorem readRom_of_lt {p : Nat} {s : State} (h : p < s.bus.romBytes) :
    readRom p s = finish s s.bus (.byte (s.bus.rom.read p)) := if_pos h

theorem readRom_cases (p : Nat) (s : State) :
    (p < s.bus.romBytes ∧ readRom p s = finish s s.bus (.byte (s.bus.rom.read p))) ∨
    (s.bus.romBytes ≤ p ∧ readRom p s = .fault .romOutOfBounds) := by
  unfold readRom
  by_cases h : p < s.bus.romBytes
  · exact .inl ⟨h, if_pos h⟩
  · exact .inr ⟨Nat.le_of_not_lt h, if_neg h⟩

theorem readCell_of_lt {r : Region} {p : Nat} {s : State} (h : p < s.bus.regionBytes r) :
    readCell r p s = finish s s.bus (.byte ((s.bus.region r).read p)) := if_pos h

theorem readCell_cases (r : Region) (p : Nat) (s : State) :
    (p < s.bus.regionBytes r ∧ readCell r p s = finish s s.bus (.byte ((s.bus.region r).read p))) ∨
    (s.bus.regionBytes r ≤ p ∧ readCell r p s = .fault (.storageOutOfBounds r)) := by
  unfold readCell
  by_cases h : p < s.bus.regionBytes r
  · exact .inl ⟨h, if_pos h⟩
  · exact .inr ⟨Nat.le_of_not_lt h, if_neg h⟩

theorem writeCell_of_lt {r : Region} {p : Nat} {d : Byte} {s : State} (h : p < s.bus.regionBytes r) :
    writeCell r p d s = finish s (s.bus.setRegion r ((s.bus.region r).write p d)) .done := if_pos h

theorem writeCell_cases (r : Region) (p : Nat) (d : Byte) (s : State) :
    (p < s.bus.regionBytes r ∧
      writeCell r p d s = finish s (s.bus.setRegion r ((s.bus.region r).write p d)) .done) ∨
    (s.bus.regionBytes r ≤ p ∧ writeCell r p d s = .fault (.storageOutOfBounds r)) := by
  unfold writeCell
  by_cases h : p < s.bus.regionBytes r
  · exact .inl ⟨h, if_pos h⟩
  · exact .inr ⟨Nat.le_of_not_lt h, if_neg h⟩

/-- What the bus can become in one operation. -/
inductive BusMove (b : Bus) : Bus → Prop where
  | same : BusMove b b
  | latch (d : Byte) : BusMove b { b with ramWriteEnabled := latchOf d }
  | low5 (d : Byte) : BusMove b { b with low5 := low5Of d }
  | bankHi (v : BitVec 2) : BusMove b (b.setBankHi v)
  | mode (m : BankingMode) : BusMove b (b.setMode m)
  | cell (r : Region) (p : Nat) (d : Byte) (h : p < b.regionBytes r) :
      BusMove b (b.setRegion r ((b.region r).write p d))

/-- A transaction takes nothing from `pending`, keeps the phase, gives one response and moves the bus in one of the
ways of `BusMove`; it draws at most one byte. -/
structure Answered (s t : State) : Prop where
  phase   : t.phase = s.phase
  pending : t.pending = s.pending
  shown   : ∃ r, t.shown = s.shown ++ [r] ∧ r.ofTransaction = true
  bus     : BusMove s.bus t.bus

theorem finish_answered {s t : State} {b : Bus} {r : Response} (h : finish s b r = .next t) (hb : BusMove s.bus b)
    (hr : r.ofTransaction = true) : Answered s t := by
  obtain rfl := finish_eq_next h
  exact ⟨rfl, rfl, ⟨r, rfl, hr⟩, hb⟩

theorem readRom_answered {p : Nat} {s t : State} (h : readRom p s = .next t) : Answered s t := by
  obtain ⟨-, e⟩ | ⟨-, e⟩ := readRom_cases p s <;> rw [e] at h
  · exact finish_answered h .same rfl
  · cases h

theorem readCell_answered {r : Region} {p : Nat} {s t : State} (h : readCell r p s = .next t) : Answered s t := by
  obtain ⟨-, e⟩ | ⟨-, e⟩ := readCell_cases r p s <;> rw [e] at h
  · exact finish_answered h .same rfl
  · cases h

theorem writeCell_answered {r : Region} {p : Nat} {d : Byte} {s t : State} (h : writeCell r p d s = .next t) :
    Answered s t := by
  obtain ⟨hp, e⟩ | ⟨-, e⟩ := writeCell_cases r p d s <;> rw [e] at h
  · exact finish_answered h (.cell r p d hp) rfl
  · cases h

theorem drawOpenBus_answered {s t : State} (h : drawOpenBus s = .next t) : Answered s t := by
  cases h
  exact ⟨rfl, rfl, ⟨_, rfl, rfl⟩, .same⟩

/-- What any transaction can do. -/
theorem exec_answered {i : Instr} {s t : State} (h : exec i s = .next t) : Answered s t := by
  cases i with
  | rdRom0 a | rdRomxMbc1 a | rdRomxNone a => exact readRom_answered h
  | rdVram a | rdWram a | rdEcho a | rdHram a => exact readCell_answered h
  | rdXramNone a => exact drawOpenBus_answered h
  | rdXramMbc1 a =>
    simp only [exec, execRdXramMbc1] at h
    split at h
    · exact readCell_answered h
    · exact drawOpenBus_answered h
  | rdUnh a | wrCtrlNone a d | wrXramNone a d | wrUnh a d => exact finish_answered h .same rfl
  | wrRamen a d => exact finish_answered h (.latch d) rfl
  | wrRomlo a d => exact finish_answered h (.low5 d) rfl
  | wrBankhi a d => exact finish_answered h (.bankHi _) rfl
  | wrMode a d => exact finish_answered h (.mode _) rfl
  | wrVram a d | wrWram a d | wrEcho a d | wrHram a d => exact writeCell_answered h
  | wrXramMbc1 a d =>
    simp only [exec, execWrXramMbc1] at h
    split at h
    · exact writeCell_answered h
    · exact finish_answered h .same rfl

/-- No transaction is refused: an instruction answers or runs out of an array's bounds. -/
theorem exec_ne_refused (i : Instr) (s : State) (q : Refusal) : exec i s ≠ .refused q := by
  intro h
  cases i with
  | rdRom0 a | rdRomxMbc1 a | rdRomxNone a =>
    obtain ⟨-, e⟩ | ⟨-, e⟩ := readRom_cases _ s <;> exact nomatch e.symm.trans h
  | rdVram a | rdWram a | rdEcho a | rdHram a =>
    obtain ⟨-, e⟩ | ⟨-, e⟩ := readCell_cases _ _ s <;> exact nomatch e.symm.trans h
  | rdXramNone a | rdUnh a => cases h
  | wrRamen a d | wrRomlo a d | wrBankhi a d | wrMode a d | wrCtrlNone a d | wrXramNone a d | wrUnh a d => cases h
  | rdXramMbc1 a =>
    simp only [exec, execRdXramMbc1] at h
    split at h
    · obtain ⟨-, e⟩ | ⟨-, e⟩ := readCell_cases _ _ s <;> exact nomatch e.symm.trans h
    · exact nomatch h
  | wrVram a d | wrWram a d | wrEcho a d | wrHram a d =>
    obtain ⟨-, e⟩ | ⟨-, e⟩ := writeCell_cases _ _ d s <;> exact nomatch e.symm.trans h
  | wrXramMbc1 a d =>
    simp only [exec, execWrXramMbc1] at h
    split at h
    · obtain ⟨-, e⟩ | ⟨-, e⟩ := writeCell_cases _ _ d s <;> exact nomatch e.symm.trans h
    · exact nomatch h

/-- A bus move keeps every array in canonical form and inside its bounds. -/
theorem BusMove.regionLegal {b c : Bus} (h : BusMove b c) (r : Region) (hb : b.regionLegal r) : c.regionLegal r := by
  cases h with
  | same => exact hb
  | latch d | low5 d => cases r <;> exact hb
  | bankHi v => simpa [Bus.regionLegal] using hb
  | mode m => simpa [Bus.regionLegal] using hb
  | cell q p d hp =>
    by_cases e : r = q
    · subst e
      refine ⟨?_, ?_⟩
      · rw [Bus.region_setRegion_self]; exact Memory.write_wf p d hb.1
      · rw [Bus.region_setRegion_self, Bus.regionBytes_setRegion]; exact Memory.write_below d hb.2 hp
    · refine ⟨?_, ?_⟩
      · rw [Bus.region_setRegion_ne _ _ _ _ e]; exact hb.1
      · rw [Bus.region_setRegion_ne _ _ _ _ e, Bus.regionBytes_setRegion]; exact hb.2

end Sys2Proof.Machine
end

