-- ==== Sys2Proof/Laws/PerInstr.lean ====
section
/-! SUPPORT. Per instruction: the encoder puts W, A and D where the format has them (30_encoding.md R52). -/

namespace Sys2Proof.Laws.EncodedFields

/-- The word of `i` has 25 bits, its bit 24 says whether `i` writes, bits 23:8 are its address, bits 7:0 its value, 0 in
a read. -/
def Statement (i : Instr) : Prop :=
  encode i < 2 ^ 25 ∧ wordIsWrite (encode i) = i.value?.isSome ∧ wordAddr (encode i) = i.addr ∧
  wordValue (encode i) = i.value?.getD 0

theorem of_read {i : Instr} (a : Addr) (ha : i.addr = a) (hd : i.value? = none) : Statement i := by
  have := readWord_lt a
  simp only [Statement, encode, hd, ha, wordIsWrite_readWord, wordAddr_readWord, wordValue_readWord]
  exact ⟨by omega, by simp⟩

theorem of_write {i : Instr} (a : Addr) (d : Byte) (ha : i.addr = a) (hd : i.value? = some d) : Statement i := by
  simp only [Statement, encode, hd, ha, wordIsWrite_writeWord, wordAddr_writeWord, wordValue_writeWord]
  exact ⟨writeWord_lt a d, by simp⟩

theorem rdRom0 (a : Addr) : Statement (.rdRom0 a) := of_read a rfl rfl
theorem rdRomxMbc1 (a : Addr) : Statement (.rdRomxMbc1 a) := of_read a rfl rfl
theorem rdRomxNone (a : Addr) : Statement (.rdRomxNone a) := of_read a rfl rfl
theorem rdVram (a : Addr) : Statement (.rdVram a) := of_read a rfl rfl
theorem rdXramMbc1 (a : Addr) : Statement (.rdXramMbc1 a) := of_read a rfl rfl
theorem rdXramNone (a : Addr) : Statement (.rdXramNone a) := of_read a rfl rfl
theorem rdWram (a : Addr) : Statement (.rdWram a) := of_read a rfl rfl
theorem rdEcho (a : Addr) : Statement (.rdEcho a) := of_read a rfl rfl
theorem rdHram (a : Addr) : Statement (.rdHram a) := of_read a rfl rfl
theorem rdUnh (a : Addr) : Statement (.rdUnh a) := of_read a rfl rfl
theorem wrRamen (a : Addr) (d : Byte) : Statement (.wrRamen a d) := of_write a d rfl rfl
theorem wrRomlo (a : Addr) (d : Byte) : Statement (.wrRomlo a d) := of_write a d rfl rfl
theorem wrBankhi (a : Addr) (d : Byte) : Statement (.wrBankhi a d) := of_write a d rfl rfl
theorem wrMode (a : Addr) (d : Byte) : Statement (.wrMode a d) := of_write a d rfl rfl
theorem wrCtrlNone (a : Addr) (d : Byte) : Statement (.wrCtrlNone a d) := of_write a d rfl rfl
theorem wrVram (a : Addr) (d : Byte) : Statement (.wrVram a d) := of_write a d rfl rfl
theorem wrXramMbc1 (a : Addr) (d : Byte) : Statement (.wrXramMbc1 a d) := of_write a d rfl rfl
theorem wrXramNone (a : Addr) (d : Byte) : Statement (.wrXramNone a d) := of_write a d rfl rfl
theorem wrWram (a : Addr) (d : Byte) : Statement (.wrWram a d) := of_write a d rfl rfl
theorem wrEcho (a : Addr) (d : Byte) : Statement (.wrEcho a d) := of_write a d rfl rfl
theorem wrHram (a : Addr) (d : Byte) : Statement (.wrHram a d) := of_write a d rfl rfl
theorem wrUnh (a : Addr) (d : Byte) : Statement (.wrUnh a d) := of_write a d rfl rfl

end Sys2Proof.Laws.EncodedFields
end

