-- ==== Sys2Proof/Laws/Report.lean ====
section
/-! SUPPORT. What the text of a debug report holds: every item, one after another, each between two gaps. -/

namespace Sys2Proof.Machine

/-- The text after `layOut` is its items in order, each after a gap. -/
theorem layOut_eq_parts (r : DebugReport) (n : Nat) (items : List HeaderQuery) :
    ∃ (parts : List (String × HeaderQuery)) (last : String),
      parts.map (fun p => p.2) = items ∧
      layOut r n items = parts.foldr (fun p text => p.1 ++ reportItem r p.2 ++ text) last := by
  induction items generalizing n with
  | nil => exact ⟨[], _, rfl, rfl⟩
  | cons q rest ih =>
    obtain ⟨parts, last, hp, he⟩ := ih (n + 1)
    exact ⟨(Config.debugLayout.gap r n, q) :: parts, last, congrArg (q :: ·) hp, by simp only [layOut, he, List.foldr_cons]⟩

/-- Every item stands in the report's text, none overlapping another. -/
theorem reportText_eq_parts (r : DebugReport) :
    ∃ (parts : List (String × HeaderQuery)) (last : String),
      (∀ q, q ∈ parts.map (fun p => p.2)) ∧
      reportText r = parts.foldr (fun p text => p.1 ++ reportItem r p.2 ++ text) last := by
  obtain ⟨parts, last, hp, he⟩ := layOut_eq_parts r 0 Config.debugLayout.order
  exact ⟨parts, last, fun q => hp ▸ Config.debugLayout.complete q, he⟩

@[simp] theorem checkText_checkWord (ok : Bool) : checkText (checkWord ok) = if ok then "OK" else "FAILED" := by
  cases ok <;> rfl

end Sys2Proof.Machine
end

