-- ==== Sys2Proof/Tests/Slice0.lean ====
section
/-! SUPPORT. The model's own tests: ill-formed terms refused, words written out from the encoding, one step at a time on
small states (expected results from 95_test_vectors.md), and a witness for the hypotheses of each statement. -/

namespace Sys2Proof.Tests

open Sys2Proof.Machine

/-! ### Helpers -/

/-- The last response of an outcome's next state. -/
def answered (o : Out) : Option Response :=
  match o with
  | .next s => s.shown.getLast?
  | .fault _ => none
  | .refused _ => none

/-- A field of an outcome's next bus. -/
def after {α : Type} (f : Bus → α) (o : Out) : Option α :=
  match o with
  | .next s => some (f s.bus)
  | .fault _ => none
  | .refused _ => none

/-- The refusal of an outcome. -/
def refusal (o : Out) : Option Refusal :=
  match o with
  | .refused r => some r
  | .next _ => none
  | .fault _ => none

/-- The phase of an outcome's next state. -/
def phaseAfter (o : Out) : Option Phase :=
  match o with
  | .next s => some s.phase
  | .fault _ => none
  | .refused _ => none

/-- A ROM of `n` banks, the first byte of bank `b` being `b` (as the fixtures of 95_test_vectors.md section 0). -/
def firstBytes (n : Nat) : Memory := Memory.ofBytesFrom 0 [] ++ (List.range n).tail.map (fun b => (b * 0x4000, BitVec.ofNat 8 b))

/-- A live machine on an MBC1 bus. -/
def mbc1 (banks : Nat) (ram : RamSize) : State :=
  State.reset.withBus { Bus.reset with romBanks := banks, rom := firstBytes banks, ramSize := ram, battery := false }

/-- A live machine on a None bus. -/
def noneMachine (banks : Nat) : State :=
  State.reset.withBus
    { Bus.reset with kind := .none, romBanks := banks, rom := firstBytes banks, ramSize := .absent, battery := false }

/-- A machine with the four registers set. -/
def withRegs (s : State) (low : BitVec 5) (high ram : BitVec 2) (m : BankingMode) (latch : Bool) : State :=
  s.withBus { s.bus with low5 := low, high2 := high, ramBankSelector := ram, bankingMode := m, ramWriteEnabled := latch }

/-- A machine with one operation coming. -/
def issuing (s : State) (ops : List HostOp) : State := { s with pending := ops }

/-- The cells of 0x100 to 0x14F of the fixtures (95_test_vectors.md section 0): type `t`, RAM code `c`, declared header
checksum `h`, declared global checksum `g`. -/
def headerBytes (t c h : Byte) (g1 g0 : Byte) : List Byte :=
  [0x00, 0xC3, 0x50, 0x01] ++ Config.logoRefDefault ++ [0x46, 0x41, 0x52, 0x4F, 0x52, 0x45] ++ List.replicate 10 0 ++
  [0x30, 0x31, 0x00, t, 0x00, c, 0x01, 0x33, 0x00, h, g1, g0]

/-- IMG(1, t, c) with the given checksum bytes. -/
def img1 (t c h g1 g0 : Byte) : Image := ⟨0x4000, Memory.ofBytesFrom 0x100 (headerBytes t c h g1 g0)⟩

/-- IMG(1, 0x00, 0). -/
def fixture : Image := img1 0x00 0x00 0x93 0x19 0x41

/-- An image of one bank with the given title region. -/
def titled (region : List Byte) (t : Byte) : Image :=
  ⟨0x4000, Memory.ofBytesFrom 0x134 (region ++ List.replicate (0x13 - region.length) 0 ++ [t])⟩

/-- A launch of an image, all initial contents zero, the configuration the header's. -/
def launchOf (img : Image) : Launch := { Launch.reset with image := img, config? := none }

/-- The configuration of IMG(1, t, c) (95_test_vectors.md H5). -/
def configTC (t c : Byte) : Except ErrorKind BusConfig :=
  configOf { Header.zero with cartridgeType := t, ramSizeByte := c }

/-- A parsed configuration, if any. -/
def okOf {α : Type} (e : Except ErrorKind α) : Option α :=
  match e with
  | .ok a => some a
  | .error _ => none

/-- The error of a construction. -/
def builtError (b : Built) : Option ErrorKind :=
  match b with
  | .error e => some e
  | .bus _ => none
  | .refused _ => none

/-! ### WellFormed refuses ill-formed terms -/

theorem test_illformed_ranges : [Instr.rdRom0 0x4000, .rdRomxMbc1 0x3FFF, .rdVram 0xA000, .rdXramMbc1 0xC000, .rdWram 0xE000,
    .rdEcho 0xFE00, .rdHram 0xFFFF, .rdUnh 0xFF80, .wrRamen 0x2000 0, .wrRomlo 0x1FFF 0, .wrBankhi 0x6000 0, .wrMode 0x8000 0,
    .wrVram 0x7FFF 0, .wrXramMbc1 0x9FFF 0, .wrWram 0xBFFF 0, .wrEcho 0xDFFF 0, .wrHram 0xFF7F 0, .wrUnh 0xFFFE 0].any
    (fun i => i.wellFormed .mbc1) = false := by decide

theorem test_illformed_none_ranges : [Instr.rdRomxNone 0x8000, .rdXramNone 0x9FFF, .wrCtrlNone 0x8000 0, .wrXramNone 0xC000 0].any
    (fun i => i.wellFormed .none) = false := by decide

theorem test_illformed_kinds : [Instr.rdRomxMbc1 0x4000, .rdXramMbc1 0xA000, .wrRamen 0 0, .wrRomlo 0x2000 0,
    .wrBankhi 0x4000 0, .wrMode 0x6000 0, .wrXramMbc1 0xA000 0].any (fun i => i.wellFormed .none) = false ∧
    [Instr.rdRomxNone 0x4000, .rdXramNone 0xA000, .wrCtrlNone 0 0, .wrXramNone 0xA000 0].any
      (fun i => i.wellFormed .mbc1) = false := by decide

theorem test_wellformed_edges : [Instr.rdRom0 0x3FFF, .rdEcho 0xFDFF, .rdHram 0xFFFE, .rdUnh 0xFF7F, .rdUnh 0xFFFF, .wrUnh 0xFE00 7].all
    (fun i => i.wellFormed .mbc1 && i.wellFormed .none) = true := by decide

theorem test_illformed_launch : (launchOf ⟨0x10, [(0x10, 1)]⟩).wellFormed = false ∧
    (Launch.wellFormed { Launch.reset with initHram := [(0x7F, 1)] }) = false ∧
    (Launch.wellFormed { Launch.reset with logoRef := [1] }) = false ∧ admittedConfig ⟨.none, .kib2, false⟩ = false ∧
    admittedConfig ⟨.mbc1, .absent, true⟩ = false := by decide

/-! ### Words written out from the encoding (95_test_vectors.md section 2, opcode_table.json) -/

/-- What the decoder reads, as an option. -/
def decoded (k : Kind) (w : Nat) : Option Instr :=
  match decode k w with
  | .ok i => some i
  | .error _ => none

theorem test_decode_read_words :
    decoded .mbc1 0x0014700 = some (.rdRom0 0x0147) ∧ decoded .mbc1 0x0400000 = some (.rdRomxMbc1 0x4000) ∧
    decoded .none 0x07FFF00 = some (.rdRomxNone 0x7FFF) ∧ decoded .none 0x0800000 = some (.rdVram 0x8000) ∧
    decoded .mbc1 0x0A12300 = some (.rdXramMbc1 0xA123) ∧ decoded .none 0x0A00000 = some (.rdXramNone 0xA000) ∧
    decoded .mbc1 0x0DDFF00 = some (.rdWram 0xDDFF) ∧ decoded .mbc1 0x0FDFF00 = some (.rdEcho 0xFDFF) ∧
    decoded .mbc1 0x0FF8000 = some (.rdHram 0xFF80) ∧ decoded .mbc1 0x0FFFF00 = some (.rdUnh 0xFFFF) ∧
    decoded .mbc1 0x0FE0000 = some (.rdUnh 0xFE00) := by decide

theorem test_decode_write_words :
    decoded .mbc1 0x100000A = some (.wrRamen 0x0000 0x0A) ∧ decoded .mbc1 0x1200005 = some (.wrRomlo 0x2000 0x05) ∧
    decoded .mbc1 0x1400003 = some (.wrBankhi 0x4000 0x03) ∧ decoded .mbc1 0x1600001 = some (.wrMode 0x6000 0x01) ∧
    decoded .none 0x1600001 = some (.wrCtrlNone 0x6000 0x01) ∧ decoded .none 0x1800011 = some (.wrVram 0x8000 0x11) ∧
    decoded .mbc1 0x1A1235A = some (.wrXramMbc1 0xA123 0x5A) ∧ decoded .none 0x1A00012 = some (.wrXramNone 0xA000 0x12) ∧
    decoded .mbc1 0x1C12377 = some (.wrWram 0xC123 0x77) ∧ decoded .mbc1 0x1FDFF3C = some (.wrEcho 0xFDFF 0x3C) ∧
    decoded .mbc1 0x1FFFE43 = some (.wrHram 0xFFFE 0x43) ∧ decoded .none 0x1FFFFFF = some (.wrUnh 0xFFFF 0xFF) := by decide

theorem test_decode_refuses : decoded .mbc1 0x0400001 = none ∧ decoded .none 0x2000000 = none := by decide

theorem test_encode_words : encode (.wrRomlo 0x2000 0x05) = 0x1200005 ∧ encode (.rdRomxMbc1 0x4000) = 0x0400000 ∧
    encode (.wrUnh 0xFFFF 0xFF) = 0x1FFFFFF := by decide

theorem test_table_has_the_44_rows : opcodeTable.length = 44 := by decide

theorem test_table_word_runs_first :
    decodeTableWord 32 0x1200005 = some (.wrRomlo 0x2000 0x05) ∧
    after (fun b => b.low5) (step (State.reset.withFetchWord 32 0x1200005)) = some 5 := by decide

/-! ### MBC write side (95_test_vectors.md section 4) -/

theorem test_ramen : [0x0A, 0x1A, 0xFA, 0x8A, 0xA0, 0x0B, 0x00, 0xFF].map
      (fun d => after (fun b => b.ramWriteEnabled) (exec (.wrRamen 0x1FFF d) (mbc1 2 .kib8))) =
    [some true, some true, some true, some true, some false, some false, some false, some false] := by decide

theorem test_romlo : [0x00, 0x01, 0x1F, 0x20, 0x21, 0x40, 0xE0, 0xE5, 0xFF].map
      (fun d => after (fun b => (b.low5, b.high2)) (exec (.wrRomlo 0x2000 d) (mbc1 128 .absent))) =
    [some (1, 0), some (1, 0), some (31, 0), some (1, 0), some (1, 0), some (1, 0), some (1, 0), some (5, 0),
      some (31, 0)] := by decide

theorem test_bankhi_rom_mode : [0x00, 0x01, 0x03, 0x04, 0x07, 0xFE].map
      (fun d => after (fun b => (b.high2, b.ramBankSelector)) (exec (.wrBankhi 0x4000 d) (mbc1 128 .kib32))) =
    [some (0, 0), some (1, 0), some (3, 0), some (0, 0), some (3, 0), some (2, 0)] := by decide

theorem test_bankhi_ram_mode : [0x01, 0x07, 0xFE].map
      (fun d => after (fun b => (b.high2, b.ramBankSelector))
        (exec (.wrBankhi 0x5FFF d) (withRegs (mbc1 128 .kib32) 1 0 0 .ramBanking false))) =
    [some (0, 1), some (0, 3), some (0, 2)] := by decide

theorem test_mode : [0x00, 0x01, 0x02, 0x03, 0xFE, 0xFF].map
      (fun d => after (fun b => (b.bankingMode, b.high2, b.low5))
        (exec (.wrMode 0x6000 d) (withRegs (mbc1 128 .kib32) 1 2 0 .romBanking false))) =
    [some (.romBanking, 2, 1), some (.ramBanking, 0, 1), some (.romBanking, 2, 1), some (.ramBanking, 0, 1),
      some (.romBanking, 2, 1), some (.ramBanking, 0, 1)] := by decide

theorem test_ctrl_none : after (fun b => b.low5) (exec (.wrCtrlNone 0x2000 0x03) (noneMachine 2)) = some 1 ∧
    answered (exec (.wrCtrlNone 0x2000 0x03) (noneMachine 2)) = some .done := by decide

theorem test_xram_write_disabled :
    after (fun b => b.xram) (exec (.wrXramMbc1 0xA000 0x11) (mbc1 4 .kib32)) = some [] := by decide

theorem test_xram_write_banked : after (fun b => b.xram)
      (exec (.wrXramMbc1 0xA123 0x5A) (withRegs (mbc1 4 .kib32) 1 0 2 .ramBanking true)) = some [(0x4123, 0x5A)] := by decide

theorem test_xram_write_small : after (fun b => b.xram)
      (exec (.wrXramMbc1 0xBFFF 0xCD) (withRegs (mbc1 8 .kib2) 1 0 0 .romBanking true)) = some [(0x7FF, 0xCD)] ∧
    after (fun b => b.xram) (exec (.wrXramMbc1 0xA010 0x99) (withRegs (mbc1 4 .kib8) 1 0 3 .ramBanking true)) =
      some [(0x010, 0x99)] := by decide

theorem test_xram_write_no_ram : after (fun b => b.xram)
      (exec (.wrXramMbc1 0xA000 0x12) (withRegs (mbc1 64 .absent) 1 0 0 .romBanking true)) = some [] ∧
    after (fun b => b.xram) (exec (.wrXramNone 0xA000 0x12) (noneMachine 2)) = some [] := by decide

/-! ### MBC read side (95_test_vectors.md section 5; the banks of B1 and S3) -/

theorem test_effective_bank :
    [(128, BankingMode.ramBanking, 0, 1), (64, .romBanking, 1, 1), (64, .romBanking, 2, 1), (100, .romBanking, 3, 31),
      (3, .romBanking, 0, 3), (2, .romBanking, 0, 2), (1, .romBanking, 3, 31), (256, .romBanking, 3, 31),
      (5, .ramBanking, 0, 7)].map
      (fun x => ({ Bus.reset with romBanks := x.1, bankingMode := x.2.1, high2 := x.2.2.1, low5 := x.2.2.2 } : Bus).effectiveRomBank) =
    [1, 33, 1, 27, 0, 0, 0, 127, 2] := by decide

theorem test_raw_bank_remaps :
    [(0, 0), (1, 0), (2, 0), (3, 0), (0, 31), (3, 31)].map
      (fun x => ({ Bus.reset with high2 := x.1, low5 := x.2 } : Bus).rawBank.toNat) =
    [0x01, 0x21, 0x41, 0x61, 0x1F, 0x7F] := by decide

theorem test_romx_shows_bank :
    answered (exec (.rdRomxMbc1 0x4000) (withRegs (mbc1 8 .absent) 5 0 0 .romBanking false)) = some (.byte 5) := by decide

theorem test_rom0 : answered (exec (.rdRom0 0x0000) (mbc1 8 .absent)) = some (.byte 0) := by decide

theorem test_romx_none : answered (exec (.rdRomxNone 0x4000) (noneMachine 2)) = some (.byte 1) ∧
    answered (exec (.rdRomxNone 0x4000) (noneMachine 1)) = some (.byte 0) := by decide

/-- A machine with RAM contents, its latch off. -/
def ramMachine (ram : RamSize) (cells : Memory) (sel : BitVec 2) (m : BankingMode) : State :=
  (withRegs (mbc1 4 ram) 1 0 sel m false).withBus
    { (withRegs (mbc1 4 ram) 1 0 sel m false).bus with xram := cells }

theorem test_xram_read_ungated :
    answered (exec (.rdXramMbc1 0xA123) (ramMachine .kib32 [(0x4123, 0x5A)] 2 .ramBanking)) = some (.byte 0x5A) := by decide

theorem test_xram_read_mirror : [0xA805, 0xB005, 0xB805].map
      (fun a => answered (exec (.rdXramMbc1 a) (ramMachine .kib2 [(0x005, 0xAB)] 0 .romBanking))) =
    [some (.byte 0xAB), some (.byte 0xAB), some (.byte 0xAB)] := by decide

theorem test_open_bus_draws (a : Addr) :
    answered (exec (.rdXramMbc1 a) (mbc1 64 .absent)) = some (.byte (Config.openBus 0)) ∧
    answered (exec (.rdXramNone a) (noneMachine 2)) = some (.byte (Config.openBus 0)) := ⟨rfl, rfl⟩

/-! ### Router (95_test_vectors.md section 6) -/

theorem test_region_writes :
    after (fun b => b.vram) (exec (.wrVram 0x9FFF 0x22) State.reset) = some [(0x1FFF, 0x22)] ∧
    after (fun b => b.wram) (exec (.wrWram 0xC123 0x77) State.reset) = some [(0x123, 0x77)] ∧
    after (fun b => b.wram) (exec (.wrEcho 0xFDFF 0x3C) State.reset) = some [(0x1DFF, 0x3C)] ∧
    after (fun b => b.hram) (exec (.wrHram 0xFFFE 0x42) State.reset) = some [(0x7E, 0x42)] := by decide

/-- A machine whose regions hold one byte each. -/
def filled : State :=
  State.reset.withBus { Bus.reset with vram := [(0, 0x11)], wram := [(0x123, 0x77), (0x1DFF, 0x3C)], hram := [(0x7E, 0x43)] }

theorem test_region_reads :
    answered (exec (.rdVram 0x8000) filled) = some (.byte 0x11) ∧ answered (exec (.rdWram 0xDDFF) filled) = some (.byte 0x3C) ∧
    answered (exec (.rdEcho 0xE123) filled) = some (.byte 0x77) ∧ answered (exec (.rdHram 0xFFFE) filled) = some (.byte 0x43) := by
  decide

theorem test_unhandled : answered (exec (.rdUnh 0xFFFF) filled) = some .unhandled ∧
    answered (exec (.wrUnh 0xFF00 0x10) filled) = some .unhandled ∧
    after (fun b => b) (exec (.wrUnh 0xFF00 0x10) filled) = some filled.bus := by decide

/-! ### Header (95_test_vectors.md section 3) -/

theorem test_fixture_checks :
    headerChecksum fixture = 0x93 ∧ globalChecksum fixture = 0x1941 ∧ declaredGlobal fixture = 0x1941 ∧
    isRunnable (headerOf Config.logoRefDefault fixture) = true := by decide +kernel

theorem test_header_checksum_by_type :
    [(0x02, 2), (0x03, 2), (0x01, 0), (0x03, 3), (0x02, 1)].map (fun x => headerChecksum (img1 x.1 x.2 0 0 0)) =
    [0x8F, 0x8E, 0x92, 0x8D, 0x90] := by decide +kernel

theorem test_header_checksum_corners : headerChecksum ⟨0x4000, []⟩ = 0xE7 ∧
    headerChecksum ⟨0x4000, Memory.ofBytesFrom 0x134 (List.replicate 25 0xFF)⟩ = 0x00 := by decide +kernel

theorem test_logo_flip :
    isRunnable (headerOf Config.logoRefDefault { fixture with bytes := fixture.bytes.write 0x104 0xCF }) = false ∧
    globalChecksum { fixture with bytes := fixture.bytes.write 0x104 0xCF } = 0x1942 := by decide +kernel

theorem test_licensee : licenseeOf fixture = .modern 0x30 0x31 ∧
    licenseeOf { fixture with bytes := fixture.bytes.write 0x14B 0x01 } = .legacy 0x01 := by decide

theorem test_titles :
    titleOf fixture = [0x46, 0x41, 0x52, 0x4F, 0x52, 0x45] ∧ titleOf (titled [] 0) = [] ∧
    titleOf (titled [0x41, 0x42, 0x43, 0x80] 0) = [0x41, 0x42, 0x43] ∧
    titleOf (titled [0x50, 0x4F, 0x4B, 0x45, 0x4D, 0x4F, 0x4E, 0xC3, 0xA9] 0) = [0x50, 0x4F, 0x4B, 0x45, 0x4D, 0x4F, 0x4E] ∧
    titleOf (titled [0x41, 0x00, 0xFF] 0) = [0x41] ∧ (titleOf (titled (List.replicate 16 0x50) 0)).length = 16 := by decide +kernel

theorem test_title_not_text : validUtf8 (titleOf (titled [0x41, 0xC0, 0x41] 0)) = false ∧
    validUtf8 [0x41, 0xC3, 0xA9, 0x41] = true ∧ validUtf8 [0xED, 0xA0, 0x80] = false ∧ validUtf8 [0xC3] = false := by decide

theorem test_configurations :
    [(0x00, 0x00), (0x01, 0x03), (0x01, 0x04), (0x02, 0x01), (0x03, 0x02), (0x03, 0x03), (0x03, 0x00)].map (fun x => okOf (configTC x.1 x.2)) =
    [some ⟨.none, .absent, false⟩, some ⟨.mbc1, .absent, false⟩, some ⟨.mbc1, .absent, false⟩, some ⟨.mbc1, .kib2, false⟩,
      some ⟨.mbc1, .kib8, true⟩, some ⟨.mbc1, .kib32, true⟩, some ⟨.mbc1, .absent, false⟩] ∧
    okOf (configTC 0x05 0x00) = none ∧ okOf (configTC 0x02 0x04) = none := by decide

theorem test_enumerations :
    [0x00, 0x80, 0xC0, 0x81].map colorOf = [.undefined, .backwardsCompatible, .gbcOnly, .invalid] ∧
    [0x00, 0x03, 0x01].map superConsoleOf = [.unsupported, .supported, .invalid] ∧
    [0x00, 0x01, 0x02].map regionOf = [.japan, .nonJapan, .invalid] := by decide

theorem test_construct_errors :
    builtError (construct (launchOf ⟨0x14F, []⟩)) = some (.malformedHeader .tooShort) ∧
    builtError (construct (launchOf ⟨0x150, []⟩)) = some .imageSizeUnsupported ∧
    builtError (construct (launchOf (titled [0x41, 0xC0, 0x41] 0x05))) = some (.malformedHeader .titleNotText) ∧
    builtError (construct (launchOf (titled [0x41] 0x05))) = some .unsupportedControllerKind := by decide +kernel

theorem test_construct_fixture :
    after (fun b => (b.kind, b.romBanks, b.low5)) (performConstruct (launchOf fixture) State.unbuilt) = some (.none, 1, 1) ∧
    phaseAfter (performConstruct (launchOf fixture) State.unbuilt) = some .live := by decide

theorem test_construct_refused : refusal (performConstruct { Launch.reset with config? := some ⟨.none, .kib8, false⟩ } State.unbuilt) =
    some .configNotAdmitted := by decide

/-! ### Host operations (95_test_vectors.md section 7) -/

theorem test_not_persistent : answered (performSave (mbc1 2 .kib8)) = some (.error .notPersistent) ∧
    answered (performRestore [] (mbc1 2 .kib8)) = some (.error .notPersistent) := by decide

theorem test_save_size_mismatch : answered (performRestore [1] State.reset) = some (.error .saveSizeMismatch) ∧
    after (fun b => b.xram) (performRestore [1] State.reset) = some [] := by decide

theorem test_report_content : (reportOf (headerOf Config.logoRefDefault fixture)).runnability = .ok ∧
    (reportOf Header.zero).runnability = .failed ∧ answerOf Header.zero .computedHeaderChecksum = .byte 0xE7 := by decide +kernel

theorem test_report_words :
    [HeaderQuery.logoOk, .headerChecksumOk, .globalChecksumOk, .isRunnable].map (reportItem (reportOf Header.zero)) =
      ["FAILED", "FAILED", "OK", "FAILED"] := by decide +kernel

theorem test_session_refusals : refusal (step State.reset) = some .runEnded ∧
    refusal (step (issuing State.unbuilt [.save])) = some .noBus ∧
    refusal (step (issuing State.reset [.construct Launch.reset])) = some .sessionOpen ∧
    refusal (step (issuing { State.reset with phase := .destroyed } [.save])) = some .sessionEnded := by decide

theorem test_error_codes : [ErrorKind.malformedHeader .tooShort, .unsupportedControllerKind, .outOfRangeBank, .ramWriteDisabled,
    .saveSizeMismatch, .imageSizeUnsupported, .notPersistent].map errorCode = [1, 2, 3, 4, 5, 6, 7] := by decide

/-! ### Assembler (30_encoding.md R52, R61, R62) -/

theorem test_assemble_write :
    assembleLine ['W', 'R', ' ', '0', 'x', '2', '0', '0', '0', ',', ' ', '0', 'x', '0', '5', ' ', ';', ' ', 'b'] =
    some [0x1200005] := by decide

theorem test_assemble_read_and_pseudo : assembleLine ['R', 'D', ' ', '1', '6', '3', '8', '4'] = some [0x0400000] ∧
    assembleLine ['S', 'E', 'L', 'R', 'O', 'M', ' ', '0', 'x', '2', '5'] = some [0x1200005, 0x1400001] ∧
    assembleLine ['R', 'A', 'M', 'O', 'N'] = some [0x100000A] ∧ assembleLine [';', 'x'] = some [] ∧
    assembleLine ['R', 'D', ' ', '6', '5', '5', '3', '6'] = none := by decide

/-! ### Witnesses: a state and operands that meet the hypotheses of each statement -/

/-- State.reset about to run a word. -/
def running (w : Nat) : State := issuing State.reset [.transaction w]

theorem test_witness_inv : State.reset.Inv ∧ State.reset.bus.Inv ∧ State.reset.phase = .live := ⟨by decide, by decide, rfl⟩

theorem test_witness_wellFormed : (Instr.wrHram 0xFFFE 0xFF).wellFormed .none = true ∧ (Instr.rdRom0 0).wellFormed .mbc1 = true := by
  decide

theorem test_witness_decode : decode .mbc1 0x1200005 = .ok (.wrRomlo 0x2000 0x05) ∧ 0x1200005 < 2 ^ 25 := ⟨rfl, by decide⟩

theorem test_witness_step_runs : (running 0x1200005).phase = .live ∧ (running 0x1200005).bus.Inv ∧
    (running 0x1200005).pending = [.transaction 0x1200005] ∧
    decode (running 0x1200005).bus.kind 0x1200005 = .ok (.wrRomlo 0x2000 0x05) := ⟨by decide, by decide, rfl, rfl⟩

theorem test_witness_step_refuses : (running 0x2000000).phase = .live ∧ (running 0x2000000).pending = [.transaction 0x2000000] ∧
    2 ^ 25 ≤ 0x2000000 ∧ (running 0x0400001).pending = [.transaction 0x0400001] ∧ 0x0400001 < 2 ^ 24 ∧ 0x0400001 % 256 ≠ 0 := by
  decide

theorem test_witness_completes : (issuing State.reset [.debugReport]).bus.Inv ∧ (issuing State.reset [.debugReport]).phase = .live ∧
    (∀ l, HostOp.debugReport ≠ .construct l) ∧ (∀ w, HostOp.debugReport = .transaction w → ∃ i, decode .mbc1 w = .ok i) :=
  ⟨by decide, by decide, nofun, nofun⟩

theorem test_witness_step_next : ∃ t, step (running 0x1600001) = .next t ∧ t.phase = .live ∧ (running 0x1600001).Inv ∧
    (∀ r ∈ (running 0x1600001).shown, r.surfacesRecovered = false) := ⟨_, rfl, rfl, by decide, by decide⟩

theorem test_witness_construct : ∃ b, construct Launch.reset = .bus b := ⟨Bus.reset, by decide⟩

theorem test_witness_canonical : Memory.wf [(3, 7)] ∧ ∀ p, Memory.read [(3, 7)] p = Memory.read [(3, 7)] p :=
  ⟨by decide, fun _ => rfl⟩

theorem test_witness_low_window : (0x3FFF#16 : Addr).toNat < 0x4000 ∧ 1 ≤ (mbc1 1 .absent).bus.romBanks := by decide

theorem test_witness_high_window : 0x4000 ≤ (0x7FFF#16 : Addr).toNat ∧ (0x7FFF#16 : Addr).toNat < 0x8000 ∧
    1 ≤ (mbc1 1 .absent).bus.romBanks := by decide

theorem test_witness_high_window_assembly :
    0 = (if (mbc1 3 .absent).bus.bankingMode = .ramBanking then 0 else (mbc1 3 .absent).bus.high2.toNat) ∧
    1 = 0 * 32 + (mbc1 3 .absent).bus.low5.toNat ∧
    1 = (if 1 = 0x00 ∨ 1 = 0x20 ∨ 1 = 0x40 ∨ 1 = 0x60 then 1 + 1 else 1) % (mbc1 3 .absent).bus.romBanks := by decide

theorem test_witness_none_window : 2 ≤ (noneMachine 2).bus.romBanks ∧ (noneMachine 1).bus.romBanks = 1 ∧
    0x4000 ≤ (0x4000#16 : Addr).toNat ∧ (0x4000#16 : Addr).toNat < 0x8000 := by decide

theorem test_witness_ram_window : 0xA000 ≤ (0xBFFF#16 : Addr).toNat ∧ (0xBFFF#16 : Addr).toNat < 0xC000 ∧
    (mbc1 4 .kib32).bus.ramSize = .kib32 ∧ (mbc1 4 .kib8).bus.ramSize = .kib8 ∧ (mbc1 4 .kib2).bus.ramSize = .kib2 ∧
    (mbc1 4 .kib2).bus.ramSize ≠ .absent ∧ (mbc1 4 .absent).bus.ramSize = .absent := by decide

theorem test_witness_reads : (running (readWord 0xFE00)).phase = .live ∧ (running (readWord 0xFE00)).bus.Inv ∧
    (running (readWord 0xFE00)).pending = [.transaction (readWord 0xFE00)] := ⟨by decide, by decide, rfl⟩

theorem test_witness_bankhi : State.reset.bus.bankingMode = .romBanking ∧
    (withRegs State.reset 1 0 3 .ramBanking false).bus.bankingMode = .ramBanking := by decide

theorem test_witness_mode : (0xFE#8 : Byte).toNat % 2 = 0 ∧ (0xFF#8 : Byte).toNat % 2 = 1 := by decide

theorem test_witness_enabled_write : (withRegs (mbc1 4 .kib2) 1 0 0 .romBanking true).bus.ramWriteEnabled = true ∧
    (withRegs (mbc1 4 .kib2) 1 0 0 .romBanking true).bus.regionLegal .xram ∧
    (withRegs (mbc1 4 .kib2) 1 0 0 .romBanking true).bus.ramSize = .kib2 ∧ 0xA000 ≤ (0xA800#16 : Addr).toNat ∧
    (0xA800#16 : Addr).toNat < 0xC000 := by decide

theorem test_witness_enabled_write_sizes : (withRegs (mbc1 4 .kib8) 1 0 3 .ramBanking true).bus.ramSize = .kib8 ∧
    (withRegs (mbc1 4 .kib32) 1 0 3 .ramBanking true).bus.ramSize = .kib32 ∧
    (withRegs (mbc1 4 .kib32) 1 0 3 .ramBanking true).bus.regionLegal .xram ∧
    (withRegs (mbc1 4 .kib8) 1 0 3 .ramBanking true).bus.regionLegal .xram := by decide

theorem test_witness_discarded_write : State.reset.bus.ramWriteEnabled = false ∧
    (withRegs (mbc1 4 .absent) 1 0 0 .romBanking true).bus.ramSize = .absent := by decide

theorem test_witness_aliasing : State.reset.bus.bankingMode = .romBanking ∧ (0x00#8 : Byte).toNat < 32 ∧ (0x03#8 : Byte).toNat < 4 ∧
    0x60 = (0x03#8 : Byte).toNat * 32 + (0x00#8 : Byte).toNat := by decide

/-- State.reset with a bank switch and a read coming. -/
def switching : State := issuing State.reset [.transaction (writeWord 0x3FFF 0x20), .transaction (readWord 0x7FFF)]

theorem test_witness_switch : switching.phase = .live ∧ switching.bus.Inv ∧ switching.bus.kind = .mbc1 ∧
    switching.bus.bankingMode = .romBanking ∧ 0x2000 ≤ (0x3FFF#16 : Addr).toNat ∧ (0x3FFF#16 : Addr).toNat < 0x4000 ∧
    0x4000 ≤ (0x7FFF#16 : Addr).toNat ∧ (0x7FFF#16 : Addr).toNat < 0x8000 ∧
    1 = (if (0x20#8 : Byte).toNat % 32 = 0 then 1 else (0x20#8 : Byte).toNat % 32) ∧
    1 = (switching.bus.high2.toNat * 32 + 1) % switching.bus.romBanks := by decide

/-- State.reset with a latch write, a RAM write and a RAM read coming. -/
def gating (e : Byte) : State := issuing State.reset
  [.transaction (writeWord 0x1FFF e), .transaction (writeWord 0xBFFF 0x77), .transaction (readWord 0xBFFF)]

theorem test_witness_gate : (gating 0x1A).phase = .live ∧ (gating 0x1A).bus.Inv ∧ (gating 0x1A).bus.kind = .mbc1 ∧
    (gating 0x1A).bus.ramSize ≠ .absent ∧ (0x1FFF#16 : Addr).toNat < 0x2000 ∧ 0xA000 ≤ (0xBFFF#16 : Addr).toNat ∧
    (0xBFFF#16 : Addr).toNat < 0xC000 ∧ (0x1A#8 : Byte).toNat % 16 = 0xA ∧ (0xA0#8 : Byte).toNat % 16 ≠ 0xA := by decide

theorem test_witness_pseudo : (issuing State.reset (issueWords (expandPseudo (.selRom 0x60)))).phase = .live ∧
    (issuing State.reset (issueWords (expandPseudo (.selRam 3)))).bus.kind = .mbc1 ∧
    (issuing State.reset (issueWords (expandPseudo (.selRam 3)))).bus.bankingMode = .romBanking ∧
    (issuing State.reset (issueWords (expandPseudo (.selRom 0x60)))).pending = issueWords (expandPseudo (.selRom 0x60)) := by
  decide

theorem test_witness_regions : 0x8000 ≤ (0x9FFF#16 : Addr).toNat ∧ (0x9FFF#16 : Addr).toNat < 0xA000 ∧
    0xC000 ≤ (0xDFFF#16 : Addr).toNat ∧ (0xDFFF#16 : Addr).toNat < 0xE000 ∧ 0xE000 ≤ (0xFDFF#16 : Addr).toNat ∧
    (0xFDFF#16 : Addr).toNat < 0xFE00 ∧ 0xFF80 ≤ (0xFFFE#16 : Addr).toNat ∧ (0xFFFE#16 : Addr).toNat < 0xFFFF ∧
    filled.bus.regionLegal .vram ∧ filled.bus.regionLegal .wram ∧ filled.bus.regionLegal .hram ∧
    (0xDDFF#16 : Addr).toNat = (0xFDFF#16 : Addr).toNat - 0x2000 := by decide

theorem test_witness_echo_cover : (∃ t, performWord (writeWord 0xFDFF 0x3C) State.reset = .next t) ∧ 0xE000 ≤ (0xFDFF#16 : Addr).toNat ∧
    0x1E00 ≤ 0x1FFF ∧ 0x1DFF < 0x1E00 := by
  have h : after (fun _ => true) (performWord (writeWord 0xFDFF 0x3C) State.reset) = some true := by decide +kernel
  refine ⟨?_, by decide, by decide, by decide⟩
  revert h
  cases performWord (writeWord 0xFDFF 0x3C) State.reset <;> simp [after]

theorem test_witness_unhandled : (0xFE00 ≤ (0xFF7F#16 : Addr).toNat ∧ (0xFF7F#16 : Addr).toNat ≤ 0xFF7F) ∧ (0xFFFF#16 : Addr).toNat = 0xFFFF := by
  decide

theorem test_witness_recent_write : State.reset.bus.Inv ∧ State.reset.bus.cellOf 0xFDFF = some (.wram, 0x1DFF) ∧
    State.reset.bus.cellOf 0xDDFF = some (.wram, 0x1DFF) ∧
    (withRegs State.reset 1 0 2 .ramBanking true).bus.Inv ∧
    (withRegs State.reset 1 0 2 .ramBanking true).bus.cellOf 0xA123 = some (.xram, 0x4123) ∧
    (withRegs State.reset 1 0 2 .ramBanking true).bus.ramWriteEnabled = true := 
  ⟨by decide, by decide, by decide, by decide, by decide, rfl⟩

theorem test_witness_idempotent : State.reset.bus.Inv ∧ State.reset.bus.drawsAt 0xA000 = false := by decide

theorem test_witness_none_registers : (noneMachine 2).phase = .live ∧ (noneMachine 2).bus.kind = .none ∧
    (noneMachine 2).withoutRegisters = (withRegs (noneMachine 2) 9 3 2 .ramBanking true).withoutRegisters := by decide

theorem test_witness_image : fixture.wf ∧ Config.logoRefDefault.length = 48 ∧ fixture.byte 0x14B = 0x33 ∧
    Image.byte ⟨0x4000, []⟩ 0x14B ≠ 0x33 := by decide

theorem test_witness_logo : 0x134 ≤ fixture.size ∧ (0xCF : Byte) ≠ fixture.byte 0x104 ∧
    logoMatches Config.logoRefDefault fixture = true := by decide

theorem test_witness_config_bytes : ({ Header.zero with cartridgeType := 0x03, ramSizeByte := 0x03 } : Header).ramSizeByte = 0x03 ∧
    3 < ({ Header.zero with cartridgeType := 0x04, ramSizeByte := 0x04 } : Header).cartridgeType.toNat ∧
    3 < ({ Header.zero with cartridgeType := 0x02, ramSizeByte := 0x04 } : Header).ramSizeByte.toNat := by decide

theorem test_witness_launch : (launchOf fixture).wellFormed = true ∧ 0x150 ≤ fixture.size ∧ fixture.size % 0x4000 = 0 ∧
    validUtf8 (titleOf fixture) = true ∧ okOf (configOf (headerOf Config.logoRefDefault fixture)) = some ⟨.none, .absent, false⟩ ∧
    (launchOf fixture).ramInit.below (ramBytes .absent) := by decide +kernel

theorem test_witness_supplied_config : Launch.reset.wellFormed = true ∧ Launch.reset.config? = some ⟨.mbc1, .kib32, true⟩ ∧
    Launch.reset.image.size % 0x4000 = 0 ∧ 0x150 ≤ Launch.reset.image.size ∧ validUtf8 (titleOf Launch.reset.image) = true := by
  decide

theorem test_witness_construct_step : (issuing State.unbuilt [.construct (launchOf fixture)]).phase = .unbuilt ∧
    (issuing State.unbuilt [.construct (launchOf fixture)]).pending = [.construct (launchOf fixture)] := ⟨rfl, rfl⟩

theorem test_witness_text : (HeaderAnswer.bytes [0x41, 0x42]).isText ∧ State.reset.bus.headerLegal ∧
    performQuery .romSizeByte State.reset = .next { State.reset with shown := State.reset.shown ++ [.answer (.byte 0)] } ∧
    ∀ v, HeaderAnswer.byte 0 ≠ .flag v := ⟨⟨['A', 'B'], by decide⟩, by decide, rfl, nofun⟩

theorem test_witness_construct_errors : (launchOf ⟨0x14F, []⟩).wellFormed = true ∧ (launchOf ⟨0x150, []⟩).wellFormed = true ∧
    (launchOf (titled [0x41, 0xC0, 0x41] 0x05)).wellFormed = true ∧ (launchOf (titled [0x41] 0x05)).wellFormed = true ∧
    (launchOf (titled [0x41] 0x05)).config? = none := by decide +kernel

theorem test_witness_failed_construct : State.unbuilt.phase = .unbuilt ∧
    builtError (construct (launchOf ⟨0x14F, []⟩)) = some (.malformedHeader .tooShort) := by decide

theorem test_witness_destroy : (issuing State.reset [.destroy]).phase = .live ∧ (issuing State.reset [.destroy]).pending = [.destroy] := by
  decide

theorem test_witness_persistent : State.reset.bus.battery = true ∧ (mbc1 2 .kib8).bus.battery = false ∧
    ([1] : List Byte).length ≠ ramBytes State.reset.bus.ramSize ∧
    (List.replicate 0x800 (0x5A : Byte)).length = ramBytes .kib2 := ⟨rfl, rfl, by decide, by rw [List.length_replicate]; rfl⟩

end Sys2Proof.Tests
end

/-! PROOFS. The assembly of the high window's raw ROM bank (42_mbc_read.md R99), and the invariant on it (10_state.md R30). -/

namespace Sys2Proof.Proofs
open Sys2Proof.Machine

/-- The four banks that R99 remaps are exactly the 7-bit multiples of 0x20. -/
theorem isRemapped_iff_mod_eq_zero (raw : BitVec 7) :
    (raw = 0x00 ∨ raw = 0x20 ∨ raw = 0x40 ∨ raw = 0x60) ↔ raw.toNat % 0x20 = 0 := by
  have hraw : raw.toNat < 2 ^ 7 := raw.isLt
  simp only [← BitVec.toNat_inj, BitVec.ofNat_eq_ofNat, BitVec.toNat_ofNat]
  omega

/-- The remap in plain arithmetic: no carry leaves the 7 bits, since 0x60 is the largest remapped bank. -/
theorem remapBank_toNat (raw : BitVec 7) :
    (remapBank raw).toNat = if raw.toNat % 0x20 = 0 then raw.toNat + 1 else raw.toNat := by
  have hraw : raw.toNat < 2 ^ 7 := raw.isLt
  simp only [remapBank, isRemapped_iff_mod_eq_zero]
  split
  · exact BitVec.toNat_add_of_lt (show raw.toNat + 1 < 2 ^ 7 by omega)
  · rfl

/-- No remapped bank is a multiple of 0x20: a multiple moves up to one more than a multiple. -/
theorem remapBank_mod_ne_zero (raw : BitVec 7) : (remapBank raw).toNat % 0x20 ≠ 0 := by
  rw [remapBank_toNat]
  split
  · omega
  · assumption

/-- Settles O33: whatever the registers hold, the raw bank is the remap of some 7-bit bank. -/
theorem assembledBankIsNeverAliased : Obligations.AssembledBankIsNeverAliased := by
  intro b
  exact remapBank_mod_ne_zero (b.activeHigh2 ++ b.low5)

end Sys2Proof.Proofs

/-! PROOFS. The header of an image (40_header.md): the two checksums as the loops of R75 and R76, and the verdicts drawn
from them and from the logo (R77, R79). -/

namespace Sys2Proof.Proofs
open Sys2Proof.Machine

/-! ### The header checksum -/

/-- A run of an image, byte by byte over its offsets. -/
theorem bytesAt_eq_map_byte (img : Image) (p n : Nat) : img.bytesAt p n = (List.range' p n).map img.byte := by
  rw [List.range'_eq_map_range, List.map_map]
  rfl

theorem headerChecksum_eq_foldl_offsets (img : Image) :
    headerChecksum img = (List.range' 0x134 25).foldl (fun acc i => acc - img.byte i - 1) 0 := by
  rw [headerChecksum, bytesAt_eq_map_byte, List.foldl_map]

theorem headerChecksumOk_headerOf_iff (logoRef : List Byte) (img : Image) :
    headerChecksumOk (headerOf logoRef img) = true ↔ headerChecksum img = img.byte 0x14D :=
  decide_eq_true_iff

/-- Settles O46: the bytes of the run are those at the 25 offsets, and the verdict compares with the byte at 0x14D. -/
theorem headerChecksumIsTheRunningDifference : Obligations.HeaderChecksumIsTheRunningDifference := by
  intro logoRef img
  exact ⟨headerChecksum_eq_foldl_offsets img, headerChecksumOk_headerOf_iff logoRef img⟩

/-! ### The global checksum -/

/-- An accumulating loop in 16 bits is a sum, which has the laws of a commutative group. -/
theorem foldl_add_eq_sum_map {α : Type} (f : α → BitVec 16) (l : List α) :
    l.foldl (fun s x => s + f x) 0 = (l.map f).sum := by
  rw [List.sum_eq_foldl, List.foldl_map]

/-- What R76's loop adds at one offset. -/
theorem add_globalTerm (s : BitVec 16) (i : Nat) (v : Byte) :
    s + globalTerm (i, v) = if i = 0x14E ∨ i = 0x14F then s else s + BitVec.ofNat 16 v.toNat := by
  unfold globalTerm
  split
  · exact BitVec.add_zero s
  · rw [BitVec.ofNat_toNat]

/-- An offset that holds 0x00 adds nothing. -/
theorem globalTerm_blank (i : Nat) : globalTerm (i, Memory.blank) = 0 := ite_self _

/-- One cell more in front moves the sum over the offsets by that cell's term, if no other cell lists its offset. -/
theorem sum_globalTerm_read_cons {n : Nat} {c : Host.Cell} {m : Memory} (hc : c.1 < n)
    (hm : Memory.read m c.1 = Memory.blank) :
    ((List.range n).map fun i => globalTerm (i, Memory.read (c :: m) i)).sum =
      globalTerm c + ((List.range n).map fun i => globalTerm (i, Memory.read m i)).sum := by
  have hterm (i : Nat) : globalTerm (i, Memory.read (c :: m) i) =
      if i = c.1 then globalTerm (i, c.2) else globalTerm (i, Memory.read m i) := by
    rw [Memory.read_cons, apply_ite (fun v => globalTerm (i, v))]
    exact if_congr eq_comm rfl rfl
  have hcount : (List.range n).count c.1 = 1 :=
    List.count_eq_one_of_mem List.nodup_range (List.mem_range.mpr hc)
  simp only [hterm]
  rw [List.sum_map_ite_eq, hcount, hm, globalTerm_blank, sub_zero, one_nsmul]

/-- The sum over the cells is the sum over all offsets: by induction on the cells, each listing an offset that the later
ones do not. -/
theorem sum_globalTerm_cells {n : Nat} {m : Memory} (hwf : m.wf) (hbelow : m.below n) :
    (m.map globalTerm).sum = ((List.range n).map fun i => globalTerm (i, Memory.read m i)).sum := by
  induction m with
  | nil => simp [globalTerm_blank]
  | cons c m ih =>
    obtain ⟨hsorted, hblank⟩ := hwf
    obtain ⟨hfirst, hrest⟩ := List.pairwise_cons.mp hsorted
    obtain ⟨hc, hm⟩ := List.forall_mem_cons.mp hbelow
    have htail : Memory.wf m := ⟨hrest, (List.forall_mem_cons.mp hblank).2⟩
    have hfree : Memory.read m c.1 = Memory.blank := Memory.read_eq_blank m c.1 fun e he => (hfirst e he).ne'
    rw [sum_globalTerm_read_cons hc hfree, List.map_cons, List.sum_cons, ih htail hm]

theorem globalChecksum_eq_foldl_offsets {img : Image} (h : img.wf) :
    globalChecksum img =
      (List.range img.size).foldl
        (fun s i => if i = 0x14E ∨ i = 0x14F then s else s + BitVec.ofNat 16 (img.byte i).toNat) 0 := by
  obtain ⟨hwf, hbelow⟩ := h
  calc globalChecksum img = (img.bytes.map globalTerm).sum := foldl_add_eq_sum_map globalTerm img.bytes
    _ = ((List.range img.size).map fun i => globalTerm (i, img.byte i)).sum := sum_globalTerm_cells hwf hbelow
    _ = (List.range img.size).foldl (fun s i => s + globalTerm (i, img.byte i)) 0 := (foldl_add_eq_sum_map _ _).symm
    _ = _ := by simp only [add_globalTerm]

/-- The declared value is big-endian (20_memory.md R37). -/
theorem declaredGlobal_toNat (img : Image) :
    (declaredGlobal img).toNat = (img.byte 0x14E).toNat * 256 + (img.byte 0x14F).toNat := by
  rw [declaredGlobal, BitVec.toNat_append, ← Nat.shiftLeft_add_eq_or_of_lt (img.byte 0x14F).isLt, Nat.shiftLeft_eq]

theorem globalChecksumOk_headerOf_iff (logoRef : List Byte) (img : Image) :
    globalChecksumOk (headerOf logoRef img) = true ↔ globalChecksum img = declaredGlobal img :=
  decide_eq_true_iff

/-- Settles O47: the sum over the cells is R76's loop over the offsets, and the verdict compares with the big-endian
value. -/
theorem globalChecksumIsTheSumOfTheImage : Obligations.GlobalChecksumIsTheSumOfTheImage := by
  intro logoRef img h
  refine ⟨globalChecksum_eq_foldl_offsets h, ?_⟩
  rw [globalChecksumOk_headerOf_iff, ← BitVec.toNat_inj, declaredGlobal_toNat]

/-! ### The logo, the licensee and runnability -/

/-- The comparison of the two lists, byte for byte. -/
theorem logoMatches_iff {logoRef : List Byte} (img : Image) (h : logoRef.length = 48) :
    logoMatches logoRef img = true ↔ ∀ i, i < 48 → logoRef[i]? = some (img.byte (0x104 + i)) := by
  have hbyte (i : Nat) (hi : i < 48) : (img.bytesAt 0x104 48)[i]? = some (img.byte (0x104 + i)) :=
    Memory.getElem?_bytesAt img.bytes 0x104 48 i hi
  have hlen : (img.bytesAt 0x104 48).length = 48 := Memory.length_bytesAt img.bytes 0x104 48
  rw [logoMatches, decide_eq_true_iff]
  constructor
  · rintro rfl
    exact hbyte
  · intro hall
    apply List.ext_getElem?'
    intro i hi
    have hi' : i < 48 := by omega
    rw [hbyte i hi', hall i hi']

theorem licenseeOf_modern {img : Image} (h : img.byte 0x14B = 0x33) :
    licenseeOf img = .modern (img.byte 0x144) (img.byte 0x145) := if_pos h

theorem licenseeOf_legacy {img : Image} (h : img.byte 0x14B ≠ 0x33) :
    licenseeOf img = .legacy (img.byte 0x14B) := if_neg h

theorem isRunnable_headerOf_iff (logoRef : List Byte) (img : Image) :
    isRunnable (headerOf logoRef img) = true ↔
      headerChecksum img = img.byte 0x14D ∧ logoMatches logoRef img = true := by
  rw [isRunnable, Bool.and_eq_true, headerChecksumOk_headerOf_iff]
  rfl

/-- Settles O48: the logo byte for byte, the licensee by the two branches of its sentinel, runnability from the verdicts
on the header checksum and the logo. -/
theorem logoLicenseeAndRunnability : Obligations.LogoLicenseeAndRunnability := by
  intro logoRef img h
  refine ⟨logoMatches_iff img h, licenseeOf_modern, licenseeOf_legacy, ?_⟩
  rw [isRunnable_headerOf_iff, logoMatches_iff img h]

end Sys2Proof.Proofs

/-! PROOFS. The control writes (41_mbc_write.md): the write-enable latch (R88), and a mode toggle (R91, R96). -/

namespace Sys2Proof.Proofs
open Sys2Proof.Machine

/-! ### The write-enable latch -/

/-- WR.RAMEN touches only the latch, whatever the address (R87, R88). -/
theorem exec_wrRamen (a : Addr) (d : Byte) (s : State) :
    exec (.wrRamen a d) s = finish s { s.bus with ramWriteEnabled := latchOf d } .done := rfl

/-- The latch bit in plain arithmetic: the low nibble of the value is its remainder modulo 16. -/
theorem latchOf_eq_decide_mod (d : Byte) : latchOf d = decide (d.toNat % 16 = 0xA) := by
  have hnibble : (valueLatch d).toNat = d.toNat % 16 := BitVec.toNat_setWidth 4 d
  rw [latchOf, decide_eq_decide, ← BitVec.toNat_inj, hnibble]
  rfl

/-- Settles O24: the write sets the latch to `latchOf` of the value, which is the test on the low nibble. -/
theorem ramEnableSetsTheLatch : Obligations.RamEnableSetsTheLatch := by
  intro s a d
  rw [exec_wrRamen, latchOf_eq_decide_mod]
  rfl

/-! ### The banking mode -/

/-- WR.MODE sets the mode that its value selects, whatever the address (R87, R91). -/
theorem exec_wrMode (a : Addr) (d : Byte) (s : State) :
    exec (.wrMode a d) s = finish s (s.bus.setMode (modeOf d)) .done := rfl

theorem modeOf_one : modeOf 0x01 = .ramBanking := by decide

theorem modeOf_zero : modeOf 0x00 = .romBanking := by decide

/-- Each of the two mode writes zeroes one field: the first `high2`, the second `ram_bank_selector` (R96). -/
theorem setMode_ramBanking_setMode_romBanking {b : Bus} (h : b.bankingMode = .romBanking) :
    (b.setMode .ramBanking).setMode .romBanking = { b with high2 := 0, ramBankSelector := 0 } :=
  calc (b.setMode .ramBanking).setMode .romBanking
    _ = { b with bankingMode := .romBanking, high2 := 0, ramBankSelector := 0 } := rfl
    _ = { b with high2 := 0, ramBankSelector := 0 } := by rw [h]

/-- Two transactions one after the other: the bus is the second one's, and the host has both responses in order. -/
theorem finish_withBus_answer (s : State) (b c : Bus) (r q : Response) :
    finish ((s.withBus b).answer r) c q = .next { s with bus := c, shown := s.shown ++ [r, q] } := by
  simp [finish, State.answer, State.withBus]

/-- Settles O31: the two mode writes toggle the mode out of RomBanking and back. -/
theorem modeToggleZeroesTheHighBits : Obligations.ModeToggleZeroesTheHighBits := by
  intro s a b hmode
  refine ⟨(s.withBus (s.bus.setMode .ramBanking)).answer .done, ?_, ?_⟩
  · rw [exec_wrMode, modeOf_one, finish]
  · rw [exec_wrMode, modeOf_zero, State.answer_bus, State.withBus_bus,
      setMode_ramBanking_setMode_romBanking hmode, finish_withBus_answer]

end Sys2Proof.Proofs

/-! PROOFS. The MBC's reads (42_mbc_read.md): the low window (R98), the high window over the assembled bank (R99, R100,
R109), and the RAM window (R102, R105). -/

namespace Sys2Proof.Proofs
open Sys2Proof.Machine

/-! ### Reads that stay inside their array -/

/-- A transaction that leaves the bus as it is only gives the host its response. -/
theorem finish_bus_self (s : State) (r : Response) :
    finish s s.bus r = .next { s with shown := s.shown ++ [r] } := rfl

theorem exec_rdRom0 (a : Addr) (s : State) : exec (.rdRom0 a) s = readRom a.toNat s := rfl

/-- Settles O17: one bank is 0x4000 bytes, so the whole low window lies inside the ROM. -/
theorem lowWindowIsRomBankZero : Obligations.LowWindowIsRomBankZero := by
  intro s a ha hbanks
  have hlt : a.toNat < s.bus.romBytes := by unfold Bus.romBytes; omega
  rw [exec_rdRom0, readRom_of_lt hlt, finish_bus_self]

/-- No wrap in the 16 bits of an address that lies in the range. -/
theorem offsetFrom_eq_sub {base a : Addr} (h : base.toNat ≤ a.toNat) : offsetFrom base a = a.toNat - base.toNat :=
  BitVec.toNat_sub_of_le h

/-- The high window over a bank that the ROM has (20_memory.md R35). -/
theorem readHighWindow_of_lt {bank : Nat} {a : Addr} {s : State} (hlo : 0x4000 ≤ a.toNat) (hhi : a.toNat < 0x8000)
    (hbank : bank < s.bus.romBanks) :
    readHighWindow bank a s =
      finish s s.bus (.byte (s.bus.rom.read (bank * 0x4000 + (a.toNat - 0x4000)))) := by
  have hoff : offsetFrom 0x4000 a = a.toNat - 0x4000 := offsetFrom_eq_sub hlo
  have hlt : bank * 0x4000 + (a.toNat - 0x4000) < s.bus.romBytes := by unfold Bus.romBytes; omega
  rw [readHighWindow, hoff, readRom_of_lt hlt]

/-! ### The assembled bank -/

/-- The `high2` that counts, in plain arithmetic (R99). -/
theorem activeHigh2_toNat (b : Bus) :
    b.activeHigh2.toNat = if b.bankingMode = .ramBanking then 0 else b.high2.toNat := by
  unfold Bus.activeHigh2
  cases b.bankingMode <;> rfl

/-- Two high bits above five low bits. -/
theorem toNat_append_two_five (x : BitVec 2) (y : BitVec 5) : (x ++ y).toNat = x.toNat * 32 + y.toNat := by
  rw [BitVec.toNat_append, ← Nat.shiftLeft_add_eq_or_of_lt y.isLt, Nat.shiftLeft_eq]

/-- The raw bank in plain arithmetic (R99). -/
theorem rawBank_toNat {b : Bus} {n : Nat} (hn : n = b.activeHigh2.toNat * 32 + b.low5.toNat) :
    b.rawBank.toNat = if n = 0x00 ∨ n = 0x20 ∨ n = 0x40 ∨ n = 0x60 then n + 1 else n := by
  have hraw : (b.activeHigh2 ++ b.low5).toNat = n := by rw [toNat_append_two_five, hn]
  have hlt : n < 128 := hraw ▸ (b.activeHigh2 ++ b.low5).isLt
  have haliased : (n = 0x00 ∨ n = 0x20 ∨ n = 0x40 ∨ n = 0x60) ↔ n % 0x20 = 0 := by omega
  rw [Bus.rawBank, remapBank_toNat, hraw]
  simp only [haliased]

theorem exec_rdRomxMbc1 (a : Addr) (s : State) :
    exec (.rdRomxMbc1 a) s = readHighWindow s.bus.effectiveRomBank a s := rfl

/-- Settles O18: the assembled bank is `effectiveRomBank`, and the reduction modulo N puts it inside the ROM. -/
theorem highWindowShowsTheEffectiveBank : Obligations.HighWindowShowsTheEffectiveBank := by
  intro s a hlo hhi hbanks h n bank hh hn hbank
  have heff : s.bus.effectiveRomBank = bank := by
    have hfields : n = s.bus.activeHigh2.toNat * 32 + s.bus.low5.toNat := by rw [hn, hh, activeHigh2_toNat]
    rw [Bus.effectiveRomBank, rawBank_toNat hfields, hbank]
  have hlt : bank < s.bus.romBanks := hbank ▸ Nat.mod_lt _ hbanks
  rw [exec_rdRomxMbc1, heff, readHighWindow_of_lt hlo hhi hlt, finish_bus_self]

/-! ### The aliasing law -/

theorem exec_wrRomlo (a : Addr) (d : Byte) (s : State) :
    exec (.wrRomlo a d) s = finish s { s.bus with low5 := low5Of d } .done := rfl

theorem exec_wrBankhi (a : Addr) (d : Byte) (s : State) :
    exec (.wrBankhi a d) s = finish s (s.bus.setBankHi (valueBank2 d)) .done := rfl

/-- The low field that a value stores, in plain arithmetic (41_mbc_write.md R89). -/
theorem low5Of_toNat (d : Byte) : (low5Of d).toNat = if d.toNat % 32 = 0 then 1 else d.toNat % 32 := by
  have hvalue : (valueLow5 d).toNat = d.toNat % 32 := BitVec.toNat_setWidth 5 d
  have hzero : valueLow5 d = 0 ↔ d.toNat % 32 = 0 := by rw [← hvalue, ← BitVec.toNat_inj]; rfl
  simp only [low5Of, hzero]
  split
  · rfl
  · exact hvalue

theorem low5Of_toNat_ne_zero (d : Byte) : (low5Of d).toNat ≠ 0 := by
  rw [low5Of_toNat]
  split
  · decide
  · assumption

/-- The two bits that a value stores, in plain arithmetic (41_mbc_write.md R90). -/
theorem valueBank2_toNat (d : Byte) : (valueBank2 d).toNat = d.toNat % 4 := BitVec.toNat_setWidth 2 d

/-- In RomBanking the field that a bank-high write sets is the one that counts. -/
theorem activeHigh2_setBankHi {b : Bus} (h : b.bankingMode = .romBanking) (v : BitVec 2) :
    (b.setBankHi v).activeHigh2 = v := by
  rw [Bus.activeHigh2, Bus.setBankHi_bankingMode, h, Bus.setBankHi_high2, if_pos h]

/-- Where the low field is not 0 (10_state.md R27), the remap leaves what a bank-high write assembles as it is. -/
theorem rawBank_setBankHi_toNat {b : Bus} (h : b.bankingMode = .romBanking) (hlow : b.low5.toNat ≠ 0) (v : BitVec 2) :
    (b.setBankHi v).rawBank.toNat = v.toNat * 32 + b.low5.toNat := by
  have hlt : b.low5.toNat < 32 := b.low5.isLt
  have hfields : v.toNat * 32 + b.low5.toNat =
      (b.setBankHi v).activeHigh2.toNat * 32 + (b.setBankHi v).low5.toNat := by
    rw [activeHigh2_setBankHi h, Bus.setBankHi_low5]
  rw [rawBank_toNat hfields, if_neg (by omega)]

/-- Settles O32: n is one of the four values exactly when the low field is 0, and the n + 1 of the law is that 0 stored
as 1. -/
theorem bankAliasingLaw : Obligations.BankAliasingLaw := by
  intro s a b low high n hmode hlow hhigh hn
  have hraw : (({ s.bus with low5 := low5Of low } : Bus).setBankHi (valueBank2 high)).rawBank.toNat =
      (valueBank2 high).toNat * 32 + (low5Of low).toNat :=
    rawBank_setBankHi_toNat (b := { s.bus with low5 := low5Of low }) hmode (low5Of_toNat_ne_zero low) _
  refine ⟨_, _, exec_wrRomlo a low s, exec_wrBankhi b high _, ?_⟩
  rw [State.answer_bus, State.withBus_bus, State.answer_bus, State.withBus_bus, hraw, valueBank2_toNat, low5Of_toNat]
  by_cases hzero : low.toNat % 32 = 0
  · rw [if_pos hzero, if_pos (by omega)]
    omega
  · rw [if_neg hzero, if_neg (by omega)]
    omega

/-! ### The RAM window -/

theorem ramBytes_pos {size : RamSize} (h : size ≠ .absent) : 0 < ramBytes size := by
  cases size with
  | absent => exact absurd rfl h
  | kib2 | kib8 | kib32 => decide

/-- A RAM-window read where there is RAM: the reduction of R102 puts every address inside the array. -/
theorem exec_rdXramMbc1_of_ram {s : State} (h : s.bus.ramSize ≠ .absent) (a : Addr) :
    exec (.rdXramMbc1 a) s = finish s s.bus (.byte (s.bus.xram.read (s.bus.ramPhys a))) := by
  have hpos : 0 < ramBytes s.bus.ramSize := ramBytes_pos h
  have hlt : s.bus.ramPhys a < s.bus.regionBytes .xram := Nat.mod_lt _ hpos
  calc exec (.rdXramMbc1 a) s
    _ = readCell .xram (s.bus.ramPhys a) s := if_pos hpos
    _ = finish s s.bus (.byte (s.bus.xram.read (s.bus.ramPhys a))) := readCell_of_lt hlt

/-- Settles O21: neither the RAM bytes nor the offset of the address contains the latch. -/
theorem ramWindowReadIsNotGatedByTheLatch : Obligations.RamWindowReadIsNotGatedByTheLatch := by
  intro s a latch _ _ hram
  refine ⟨s.bus.xram.read (s.bus.ramPhys a), exec_rdXramMbc1_of_ram hram a, ?_⟩
  exact exec_rdXramMbc1_of_ram (s := { s with bus := { s.bus with ramWriteEnabled := latch } }) hram a

end Sys2Proof.Proofs

/-! PROOFS. The router's regions (43_bus_router.md): video RAM, work RAM, its echo and high RAM, read (R113, R115, R117,
R119) and written (R114, R116, R118, R120), and the echo as the cells of work RAM (R118). -/

namespace Sys2Proof.Proofs
open Sys2Proof.Machine

/-! ### No range leaves its array (20_memory.md R43) -/

theorem vramOffset_lt_regionBytes (b : Bus) {n : Nat} (h : n < 0xA000) : n - 0x8000 < b.regionBytes .vram := by
  simp only [Bus.regionBytes]
  omega

theorem wramOffset_lt_regionBytes (b : Bus) {n : Nat} (h : n < 0xE000) : n - 0xC000 < b.regionBytes .wram := by
  simp only [Bus.regionBytes]
  omega

theorem echoOffset_lt_regionBytes (b : Bus) {n : Nat} (h : n < 0xFE00) : n - 0xE000 < b.regionBytes .wram := by
  simp only [Bus.regionBytes]
  omega

theorem hramOffset_lt_regionBytes (b : Bus) {n : Nat} (h : n < 0xFFFF) : n - 0xFF80 < b.regionBytes .hram := by
  simp only [Bus.regionBytes]
  omega

/-! ### Reads of a region -/

theorem exec_rdVram {a : Addr} (h : 0x8000 ≤ a.toNat) (s : State) :
    exec (.rdVram a) s = readCell .vram (a.toNat - 0x8000) s :=
  congrArg (readCell .vram · s) (offsetFrom_eq_sub h)

theorem exec_rdWram {a : Addr} (h : 0xC000 ≤ a.toNat) (s : State) :
    exec (.rdWram a) s = readCell .wram (a.toNat - 0xC000) s :=
  congrArg (readCell .wram · s) (offsetFrom_eq_sub h)

theorem exec_rdEcho {a : Addr} (h : 0xE000 ≤ a.toNat) (s : State) :
    exec (.rdEcho a) s = readCell .wram (a.toNat - 0xE000) s :=
  congrArg (readCell .wram · s) (offsetFrom_eq_sub h)

theorem exec_rdHram {a : Addr} (h : 0xFF80 ≤ a.toNat) (s : State) :
    exec (.rdHram a) s = readCell .hram (a.toNat - 0xFF80) s :=
  congrArg (readCell .hram · s) (offsetFrom_eq_sub h)

/-- A read inside an array gives the host its byte and changes nothing else. -/
theorem readCell_eq_next {r : Region} {p : Nat} {s : State} (hp : p < s.bus.regionBytes r) :
    readCell r p s = .next { s with shown := s.shown ++ [.byte ((s.bus.region r).read p)] } := by
  rw [readCell_of_lt hp, finish_bus_self]

/-- Settles O37: each read is one cell of an array that its range does not leave. -/
theorem regionReadsGiveTheCell : Obligations.RegionReadsGiveTheCell := by
  intro s a
  refine ⟨?vram, ?wram, ?echo, ?hram⟩ <;> intro hlo hhi
  case vram => exact (exec_rdVram hlo s).trans (readCell_eq_next (vramOffset_lt_regionBytes s.bus hhi))
  case wram => exact (exec_rdWram hlo s).trans (readCell_eq_next (wramOffset_lt_regionBytes s.bus hhi))
  case echo => exact (exec_rdEcho hlo s).trans (readCell_eq_next (echoOffset_lt_regionBytes s.bus hhi))
  case hram => exact (exec_rdHram hlo s).trans (readCell_eq_next (hramOffset_lt_regionBytes s.bus hhi))

/-! ### Writes of a region -/

theorem exec_wrVram {a : Addr} (h : 0x8000 ≤ a.toNat) (d : Byte) (s : State) :
    exec (.wrVram a d) s = writeCell .vram (a.toNat - 0x8000) d s :=
  congrArg (writeCell .vram · d s) (offsetFrom_eq_sub h)

theorem exec_wrWram {a : Addr} (h : 0xC000 ≤ a.toNat) (d : Byte) (s : State) :
    exec (.wrWram a d) s = writeCell .wram (a.toNat - 0xC000) d s :=
  congrArg (writeCell .wram · d s) (offsetFrom_eq_sub h)

theorem exec_wrEcho {a : Addr} (h : 0xE000 ≤ a.toNat) (d : Byte) (s : State) :
    exec (.wrEcho a d) s = writeCell .wram (a.toNat - 0xE000) d s :=
  congrArg (writeCell .wram · d s) (offsetFrom_eq_sub h)

theorem exec_wrHram {a : Addr} (h : 0xFF80 ≤ a.toNat) (d : Byte) (s : State) :
    exec (.wrHram a d) s = writeCell .hram (a.toNat - 0xFF80) d s :=
  congrArg (writeCell .hram · d s) (offsetFrom_eq_sub h)

theorem sameConfig_setRegion (b : Bus) (r : Region) (m : Memory) : b.sameConfig (b.setRegion r m) := by
  simp [Bus.sameConfig]

theorem sameRegisters_setRegion (b : Bus) (r : Region) (m : Memory) : b.sameRegisters (b.setRegion r m) := by
  simp [Bus.sameRegisters]

/-- A write of one cell: another cell is another offset of the same array, or lies in another array. -/
theorem sameBut_setRegion_write (b : Bus) (r : Region) (p : Nat) (d : Byte) :
    b.sameBut (b.setRegion r ((b.region r).write p d)) (r, p) := by
  intro q x hne
  by_cases hq : q = r
  · subst hq
    have hx : x ≠ p := fun e => hne (by rw [e])
    rw [Bus.region_setRegion_self, Memory.read_write_ne _ _ _ _ hx]
  · rw [Bus.region_setRegion_ne _ _ _ _ hq]

/-- A write inside a legal array stores the byte and changes nothing else. -/
theorem writeCell_storesOnly {r : Region} {p : Nat} {s : State} (d : Byte) (hlegal : s.bus.regionLegal r)
    (hp : p < s.bus.regionBytes r) : ∃ t, writeCell r p d s = .next t ∧ StoresOnly s t r p d := by
  obtain ⟨hwf, -⟩ := hlegal
  refine ⟨_, writeCell_of_lt hp, rfl, rfl, rfl, rfl, sameConfig_setRegion _ _ _, sameRegisters_setRegion _ _ _, ?_,
    sameBut_setRegion_write _ _ _ _⟩
  rw [State.answer_bus, State.withBus_bus, Bus.region_setRegion_self, Memory.read_write_self _ _ _ hwf]

/-- Settles O38: each write is one cell of an array that its range does not leave. -/
theorem regionWritesStoreOneByte : Obligations.RegionWritesStoreOneByte := by
  intro s a d hvram hwram hhram
  refine ⟨?vram, ?wram, ?echo, ?hram⟩ <;> intro hlo hhi
  case vram =>
    rw [exec_wrVram hlo]
    exact writeCell_storesOnly d hvram (vramOffset_lt_regionBytes s.bus hhi)
  case wram =>
    rw [exec_wrWram hlo]
    exact writeCell_storesOnly d hwram (wramOffset_lt_regionBytes s.bus hhi)
  case echo =>
    rw [exec_wrEcho hlo]
    exact writeCell_storesOnly d hwram (echoOffset_lt_regionBytes s.bus hhi)
  case hram =>
    rw [exec_wrHram hlo]
    exact writeCell_storesOnly d hhram (hramOffset_lt_regionBytes s.bus hhi)

/-! ### The echo -/

/-- A stored byte is what a read of its cell gives. -/
theorem readCell_of_storesOnly {s t : State} {r : Region} {p : Nat} {d : Byte} (h : StoresOnly s t r p d)
    (hp : p < t.bus.regionBytes r) : readCell r p t = .next { t with shown := t.shown ++ [.byte d] } := by
  obtain ⟨-, -, -, -, -, -, hread, -⟩ := h
  rw [readCell_eq_next hp, hread]

/-- Settles O39: the two addresses have one offset of work RAM, so the cell that either stores is the one that the other
reads. -/
theorem echoAndWorkRamAreTheSameCells : Obligations.EchoAndWorkRamAreTheSameCells := by
  intro s a c d hlegal halo hahi hc
  have hclo : 0xC000 ≤ c.toNat := by omega
  have hoff : c.toNat - 0xC000 = a.toNat - 0xE000 := by omega
  have hcell (b : Bus) : a.toNat - 0xE000 < b.regionBytes .wram := echoOffset_lt_regionBytes b hahi
  obtain ⟨t, hwrite, hstore⟩ := writeCell_storesOnly d hlegal (hcell s.bus)
  have hread := readCell_of_storesOnly hstore (hcell t.bus)
  rw [exec_wrEcho halo, exec_wrWram hclo, hoff]
  refine ⟨⟨t, hwrite, hstore, ?_⟩, t, hwrite, ?_⟩
  · rw [exec_rdWram hclo, hoff, hread]
  · rw [exec_rdEcho halo, hread]

end Sys2Proof.Proofs

/-! PROOFS. The encoding (30_encoding.md): what the router names in each range of addresses (R57, R111, R112), the
decoder and the encoder as inverses of each other (R53, R63), and the words that spell no transaction. -/

namespace Sys2Proof.Proofs
open Sys2Proof.Machine

/-! ### Ranges of addresses in plain arithmetic -/

theorem within_iff (a lo hi : Addr) : Addr.within a lo hi = true ↔ lo.toNat ≤ a.toNat ∧ a.toNat ≤ hi.toNat := by
  rw [Addr.within, Bool.and_eq_true, decide_eq_true_iff, decide_eq_true_iff]
  rfl

theorem isEcho_iff (a : Addr) : a.isEcho = true ↔ 0xE000 ≤ a.toNat ∧ a.toNat ≤ 0xFDFF := within_iff a 0xE000 0xFDFF

theorem isUnhandled_iff (a : Addr) :
    a.isUnhandled = true ↔ (0xFE00 ≤ a.toNat ∧ a.toNat ≤ 0xFF7F) ∨ a.toNat = 0xFFFF := by
  rw [Addr.isUnhandled, Bool.or_eq_true, within_iff, decide_eq_true_iff, ← BitVec.toNat_inj]
  rfl

/-- An operation that a bus of kind `k` has, of every kind or of this one. -/
theorem ofKind_iff (k : Kind) (o : Op) : o.ofKind k = true ↔ o.kind? = none ∨ o.kind? = some k := by
  rw [Op.ofKind, Bool.or_eq_true, decide_eq_true_iff, decide_eq_true_iff]

theorem wellFormed_iff (k : Kind) (i : Instr) :
    i.wellFormed k = true ↔ (i.op.kind? = none ∨ i.op.kind? = some k) ∧ i.inRange = true := by
  rw [Instr.wellFormed, Bool.and_eq_true, ofKind_iff]

/-! ### What the router names in each range (43_bus_router.md R111, R112) -/

section Routes
variable (k : Kind) {a : Addr} (d : Byte)

theorem routeRead_rom0 (h : a.toNat < 0x4000) : routeRead k a = .rdRom0 a := if_pos h

theorem routeRead_romx (hlo : 0x4000 ≤ a.toNat) (hhi : a.toNat < 0x8000) : routeRead k a = routeRomx k a := by
  rw [routeRead, if_neg, if_pos] <;> bv_omega

theorem routeRead_vram (hlo : 0x8000 ≤ a.toNat) (hhi : a.toNat < 0xA000) : routeRead k a = .rdVram a := by
  rw [routeRead, if_neg, if_neg, if_pos] <;> bv_omega

theorem routeRead_xram (hlo : 0xA000 ≤ a.toNat) (hhi : a.toNat < 0xC000) : routeRead k a = routeReadXram k a := by
  rw [routeRead, if_neg, if_neg, if_neg, if_pos] <;> bv_omega

theorem routeRead_wram (hlo : 0xC000 ≤ a.toNat) (hhi : a.toNat < 0xE000) : routeRead k a = .rdWram a := by
  rw [routeRead, if_neg, if_neg, if_neg, if_neg, if_pos] <;> bv_omega

theorem routeRead_echo (hlo : 0xE000 ≤ a.toNat) (hhi : a.toNat < 0xFE00) : routeRead k a = .rdEcho a := by
  rw [routeRead, if_neg, if_neg, if_neg, if_neg, if_neg, if_pos] <;> bv_omega

theorem routeRead_hram (hlo : 0xFF80 ≤ a.toNat) (hhi : a.toNat < 0xFFFF) : routeRead k a = .rdHram a := by
  rw [routeRead, if_neg, if_neg, if_neg, if_neg, if_neg, if_neg, if_pos] <;> bv_omega

theorem routeRead_unhandled (h : (0xFE00 ≤ a.toNat ∧ a.toNat ≤ 0xFF7F) ∨ a.toNat = 0xFFFF) :
    routeRead k a = .rdUnh a := by
  rw [routeRead, if_neg, if_neg, if_neg, if_neg, if_neg, if_neg, if_neg] <;> bv_omega

theorem routeWrite_control (h : a.toNat < 0x8000) : routeWrite k a d = routeControl k a d := if_pos h

theorem routeWrite_vram (hlo : 0x8000 ≤ a.toNat) (hhi : a.toNat < 0xA000) : routeWrite k a d = .wrVram a d := by
  rw [routeWrite, if_neg, if_pos] <;> bv_omega

theorem routeWrite_xram (hlo : 0xA000 ≤ a.toNat) (hhi : a.toNat < 0xC000) :
    routeWrite k a d = routeWriteXram k a d := by
  rw [routeWrite, if_neg, if_neg, if_pos] <;> bv_omega

theorem routeWrite_wram (hlo : 0xC000 ≤ a.toNat) (hhi : a.toNat < 0xE000) : routeWrite k a d = .wrWram a d := by
  rw [routeWrite, if_neg, if_neg, if_neg, if_pos] <;> bv_omega

theorem routeWrite_echo (hlo : 0xE000 ≤ a.toNat) (hhi : a.toNat < 0xFE00) : routeWrite k a d = .wrEcho a d := by
  rw [routeWrite, if_neg, if_neg, if_neg, if_neg, if_pos] <;> bv_omega

theorem routeWrite_hram (hlo : 0xFF80 ≤ a.toNat) (hhi : a.toNat < 0xFFFF) : routeWrite k a d = .wrHram a d := by
  rw [routeWrite, if_neg, if_neg, if_neg, if_neg, if_neg, if_pos] <;> bv_omega

theorem routeWrite_unhandled (h : (0xFE00 ≤ a.toNat ∧ a.toNat ≤ 0xFF7F) ∨ a.toNat = 0xFFFF) :
    routeWrite k a d = .wrUnh a d := by
  rw [routeWrite, if_neg, if_neg, if_neg, if_neg, if_neg, if_neg] <;> bv_omega

/-! The four control ranges of an MBC1 (41_mbc_write.md R87). -/

theorem routeWrite_ramen (h : a.toNat < 0x2000) : routeWrite .mbc1 a d = .wrRamen a d :=
  (routeWrite_control .mbc1 d (by omega)).trans (if_pos h)

theorem routeWrite_romlo (hlo : 0x2000 ≤ a.toNat) (hhi : a.toNat < 0x4000) : routeWrite .mbc1 a d = .wrRomlo a d := by
  rw [routeWrite_control .mbc1 d (by omega), routeControl, if_neg, if_pos] <;> bv_omega

theorem routeWrite_bankhi (hlo : 0x4000 ≤ a.toNat) (hhi : a.toNat < 0x6000) :
    routeWrite .mbc1 a d = .wrBankhi a d := by
  rw [routeWrite_control .mbc1 d (by omega), routeControl, if_neg, if_neg, if_pos] <;> bv_omega

theorem routeWrite_mode (hlo : 0x6000 ≤ a.toNat) (hhi : a.toNat < 0x8000) : routeWrite .mbc1 a d = .wrMode a d := by
  rw [routeWrite_control .mbc1 d (by omega), routeControl, if_neg, if_neg, if_neg] <;> bv_omega

end Routes

/-- A well-formed read is what the router names at its address. -/
theorem routeRead_of_wellFormed {k : Kind} {i : Instr} (h : i.wellFormed k = true) (hv : i.value? = none) :
    routeRead k i.addr = i := by
  obtain ⟨hkind, hrange⟩ := (wellFormed_iff k i).1 h
  cases i <;>
    simp [Instr.op, Op.kind?, Instr.inRange, within_iff, isEcho_iff, isUnhandled_iff, Instr.value?]
      at hkind hrange hv <;>
    simp only [Instr.addr]
  case rdRom0 a => exact routeRead_rom0 k (by omega)
  case rdRomxMbc1 a => subst hkind; exact routeRead_romx .mbc1 (by omega) (by omega)
  case rdRomxNone a => subst hkind; exact routeRead_romx .none (by omega) (by omega)
  case rdVram a => exact routeRead_vram k (by omega) (by omega)
  case rdXramMbc1 a => subst hkind; exact routeRead_xram .mbc1 (by omega) (by omega)
  case rdXramNone a => subst hkind; exact routeRead_xram .none (by omega) (by omega)
  case rdWram a => exact routeRead_wram k (by omega) (by omega)
  case rdEcho a => exact routeRead_echo k (by omega) (by omega)
  case rdHram a => exact routeRead_hram k (by omega) (by omega)
  case rdUnh a => exact routeRead_unhandled k hrange

/-- A well-formed write is what the router names at its address and value. -/
theorem routeWrite_of_wellFormed {k : Kind} {i : Instr} {d : Byte} (h : i.wellFormed k = true)
    (hv : i.value? = some d) : routeWrite k i.addr d = i := by
  obtain ⟨hkind, hrange⟩ := (wellFormed_iff k i).1 h
  cases i <;>
    simp [Instr.op, Op.kind?, Instr.inRange, within_iff, isEcho_iff, isUnhandled_iff, Instr.value?]
      at hkind hrange hv <;>
    subst hv <;> simp only [Instr.addr]
  case wrRamen a d => subst hkind; exact routeWrite_ramen d (by omega)
  case wrRomlo a d => subst hkind; exact routeWrite_romlo d (by omega) (by omega)
  case wrBankhi a d => subst hkind; exact routeWrite_bankhi d (by omega) (by omega)
  case wrMode a d => subst hkind; exact routeWrite_mode d (by omega) (by omega)
  case wrCtrlNone a d => subst hkind; exact routeWrite_control .none d (by omega)
  case wrVram a d => exact routeWrite_vram k d (by omega) (by omega)
  case wrXramMbc1 a d => subst hkind; exact routeWrite_xram .mbc1 d (by omega) (by omega)
  case wrXramNone a d => subst hkind; exact routeWrite_xram .none d (by omega) (by omega)
  case wrWram a d => exact routeWrite_wram k d (by omega) (by omega)
  case wrEcho a d => exact routeWrite_echo k d (by omega) (by omega)
  case wrHram a d => exact routeWrite_hram k d (by omega) (by omega)
  case wrUnh a d => exact routeWrite_unhandled k d hrange

/-! ### The decoder on the two words of the encoder -/

theorem decode_readWord (k : Kind) (a : Addr) : decode k (readWord a) = .ok (routeRead k a) := by
  have hlt := readWord_lt a
  rw [decode, if_neg (by omega), wordIsWrite_readWord, wordValue_readWord, wordAddr_readWord]
  rfl

theorem decode_writeWord (k : Kind) (a : Addr) (d : Byte) : decode k (writeWord a d) = .ok (routeWrite k a d) := by
  have hlt := writeWord_lt a d
  rw [decode, if_neg (by omega), wordIsWrite_writeWord, wordValue_writeWord, wordAddr_writeWord]
  rfl

theorem encode_of_read {i : Instr} (h : i.value? = none) : encode i = readWord i.addr := by rw [encode, h]

theorem encode_of_write {i : Instr} {d : Byte} (h : i.value? = some d) : encode i = writeWord i.addr d := by
  rw [encode, h]

/-- Settles O1: the word's fields are the instruction's, and the router names a well-formed instruction at its own
address. -/
theorem decodeOfEncodeIsTheInstruction : Obligations.DecodeOfEncodeIsTheInstruction := by
  intro k i h
  cases hv : i.value? with
  | none => rw [encode_of_read hv, decode_readWord, routeRead_of_wellFormed h hv]
  | some d => rw [encode_of_write hv, decode_writeWord, routeWrite_of_wellFormed h hv]

/-! ### What the decoder reads -/

/-- The regions of the address space (20_memory.md R43). -/
theorem addr_regions (a : Addr) :
    a.toNat < 0x4000 ∨ (0x4000 ≤ a.toNat ∧ a.toNat < 0x8000) ∨ (0x8000 ≤ a.toNat ∧ a.toNat < 0xA000) ∨
    (0xA000 ≤ a.toNat ∧ a.toNat < 0xC000) ∨ (0xC000 ≤ a.toNat ∧ a.toNat < 0xE000) ∨
    (0xE000 ≤ a.toNat ∧ a.toNat < 0xFE00) ∨ (0xFF80 ≤ a.toNat ∧ a.toNat < 0xFFFF) ∨
    ((0xFE00 ≤ a.toNat ∧ a.toNat ≤ 0xFF7F) ∨ a.toNat = 0xFFFF) := by
  have hlt : a.toNat < 2 ^ 16 := a.isLt
  omega

/-- The control ranges of an MBC1 (41_mbc_write.md R87). -/
theorem control_regions {a : Addr} (h : a.toNat < 0x8000) :
    a.toNat < 0x2000 ∨ (0x2000 ≤ a.toNat ∧ a.toNat < 0x4000) ∨ (0x4000 ≤ a.toNat ∧ a.toNat < 0x6000) ∨
    (0x6000 ≤ a.toNat ∧ a.toNat < 0x8000) := by
  omega

/-- A range of addresses with its upper bound left out. -/
theorem within_of_lt {a lo hi : Addr} (hlo : lo.toNat ≤ a.toNat) (hhi : a.toNat < hi.toNat + 1) :
    Addr.within a lo hi = true :=
  (within_iff a lo hi).2 ⟨hlo, Nat.le_of_lt_succ hhi⟩

/-- The router names a read of the kind, in its range. -/
theorem routeRead_wellFormed (k : Kind) (a : Addr) : (routeRead k a).wellFormed k = true := by
  rw [wellFormed_iff]
  rcases addr_regions a with h | ⟨hlo, hhi⟩ | ⟨hlo, hhi⟩ | ⟨hlo, hhi⟩ | ⟨hlo, hhi⟩ | ⟨hlo, hhi⟩ | ⟨hlo, hhi⟩ | h
  · rw [routeRead_rom0 k h]; exact ⟨.inl rfl, within_of_lt (Nat.zero_le _) h⟩
  · rw [routeRead_romx k hlo hhi]; cases k <;> exact ⟨.inr rfl, within_of_lt hlo hhi⟩
  · rw [routeRead_vram k hlo hhi]; exact ⟨.inl rfl, within_of_lt hlo hhi⟩
  · rw [routeRead_xram k hlo hhi]; cases k <;> exact ⟨.inr rfl, within_of_lt hlo hhi⟩
  · rw [routeRead_wram k hlo hhi]; exact ⟨.inl rfl, within_of_lt hlo hhi⟩
  · rw [routeRead_echo k hlo hhi]; exact ⟨.inl rfl, within_of_lt hlo hhi⟩
  · rw [routeRead_hram k hlo hhi]; exact ⟨.inl rfl, within_of_lt hlo hhi⟩
  · rw [routeRead_unhandled k h]; exact ⟨.inl rfl, (isUnhandled_iff a).2 h⟩

/-- The router names a write of the kind, in its range. -/
theorem routeWrite_wellFormed (k : Kind) (a : Addr) (d : Byte) : (routeWrite k a d).wellFormed k = true := by
  rw [wellFormed_iff]
  by_cases hctrl : a.toNat < 0x8000
  · cases k with
    | none =>
      rw [routeWrite_control .none d hctrl]; exact ⟨.inr rfl, within_of_lt (Nat.zero_le _) hctrl⟩
    | mbc1 =>
      rcases control_regions hctrl with h | ⟨hlo, hhi⟩ | ⟨hlo, hhi⟩ | ⟨hlo, hhi⟩
      · rw [routeWrite_ramen d h]; exact ⟨.inr rfl, within_of_lt (Nat.zero_le _) h⟩
      · rw [routeWrite_romlo d hlo hhi]; exact ⟨.inr rfl, within_of_lt hlo hhi⟩
      · rw [routeWrite_bankhi d hlo hhi]; exact ⟨.inr rfl, within_of_lt hlo hhi⟩
      · rw [routeWrite_mode d hlo hhi]; exact ⟨.inr rfl, within_of_lt hlo hhi⟩
  · rcases addr_regions a with h | ⟨-, h⟩ | ⟨hlo, hhi⟩ | ⟨hlo, hhi⟩ | ⟨hlo, hhi⟩ | ⟨hlo, hhi⟩ | ⟨hlo, hhi⟩ | h
    · omega
    · omega
    · rw [routeWrite_vram k d hlo hhi]; exact ⟨.inl rfl, within_of_lt hlo hhi⟩
    · rw [routeWrite_xram k d hlo hhi]; cases k <;> exact ⟨.inr rfl, within_of_lt hlo hhi⟩
    · rw [routeWrite_wram k d hlo hhi]; exact ⟨.inl rfl, within_of_lt hlo hhi⟩
    · rw [routeWrite_echo k d hlo hhi]; exact ⟨.inl rfl, within_of_lt hlo hhi⟩
    · rw [routeWrite_hram k d hlo hhi]; exact ⟨.inl rfl, within_of_lt hlo hhi⟩
    · rw [routeWrite_unhandled k d h]; exact ⟨.inl rfl, (isUnhandled_iff a).2 h⟩

theorem routeRead_value? (k : Kind) (a : Addr) : (routeRead k a).value? = none := by
  unfold routeRead
  split_ifs <;> cases k <;> rfl

@[simp] theorem routeRead_addr (k : Kind) (a : Addr) : (routeRead k a).addr = a := by
  unfold routeRead
  split_ifs <;> cases k <;> rfl

theorem routeControl_value? (k : Kind) (a : Addr) (d : Byte) : (routeControl k a d).value? = some d := by
  unfold routeControl
  cases k
  · rfl
  · dsimp only
    split_ifs <;> rfl

theorem routeControl_addr (k : Kind) (a : Addr) (d : Byte) : (routeControl k a d).addr = a := by
  unfold routeControl
  cases k
  · rfl
  · dsimp only
    split_ifs <;> rfl

theorem routeWrite_value? (k : Kind) (a : Addr) (d : Byte) : (routeWrite k a d).value? = some d := by
  unfold routeWrite
  split_ifs
  · exact routeControl_value? k a d
  all_goals cases k <;> rfl

@[simp] theorem routeWrite_addr (k : Kind) (a : Addr) (d : Byte) : (routeWrite k a d).addr = a := by
  unfold routeWrite
  split_ifs
  · exact routeControl_addr k a d
  all_goals cases k <;> rfl

/-- A word of 25 bits is its three fields (30_encoding.md R52). -/
theorem word_eq_fields {w : Nat} (h : w < 2 ^ 25) :
    w = w / 2 ^ 24 % 2 * 2 ^ 24 + (wordAddr w).toNat * 2 ^ 8 + (wordValue w).toNat := by
  simp only [wordAddr, wordValue, BitVec.toNat_ofNat]
  omega

/-- What a word that decodes is: the word of a read or of a write, at the operation that the router names. -/
theorem decode_cases {k : Kind} {w : Nat} {i : Instr} (h : decode k w = .ok i) :
    (∃ a, w = readWord a ∧ i = routeRead k a) ∨ ∃ a d, w = writeWord a d ∧ i = routeWrite k a d := by
  rw [decode] at h
  split_ifs at h with hbits hwrite hvalue
  · have hfields := word_eq_fields (Nat.lt_of_not_le hbits)
    have hw : w / 2 ^ 24 % 2 = 1 := of_decide_eq_true hwrite
    refine .inr ⟨wordAddr w, wordValue w, ?_, (Except.ok.inj h).symm⟩
    rw [writeWord]; omega
  · have hfields := word_eq_fields (Nat.lt_of_not_le hbits)
    have hw : w / 2 ^ 24 % 2 ≠ 1 := of_decide_eq_false (Bool.eq_false_of_not_eq_true hwrite)
    refine .inl ⟨wordAddr w, ?_, (Except.ok.inj h).symm⟩
    rw [hvalue, show w / 2 ^ 24 % 2 = 0 by omega] at hfields
    simpa [readWord] using hfields

/-- Settles O2: what the router names is well formed, and has the address and the value of the word. -/
theorem decodedInstructionIsWellFormedAndEncodesBack : Obligations.DecodedInstructionIsWellFormedAndEncodesBack := by
  intro k w i h
  rcases decode_cases h with ⟨a, rfl, rfl⟩ | ⟨a, d, rfl, rfl⟩
  · exact ⟨routeRead_wellFormed k a, by rw [encode_of_read (routeRead_value? k a), routeRead_addr]⟩
  · exact ⟨routeWrite_wellFormed k a d, by rw [encode_of_write (routeWrite_value? k a d), routeWrite_addr]⟩

/-! ### The words that spell no transaction -/

theorem decode_bitsAboveWord {k : Kind} {w : Nat} (h : 2 ^ 25 ≤ w) : decode k w = .error .bitsAboveWord := if_pos h

theorem decode_readWithValue {k : Kind} {w : Nat} (hread : w < 2 ^ 24) (hvalue : w % 256 ≠ 0) :
    decode k w = .error .readWithValue := by
  have hw : wordIsWrite w = false := decide_eq_false (by omega)
  have hv : wordValue w ≠ 0 := fun e => hvalue (congrArg BitVec.toNat e)
  rw [decode, if_neg (by omega), hw, if_neg Bool.false_ne_true, if_neg hv]

theorem decode_ok {k : Kind} {w : Nat} (hbits : w < 2 ^ 25) (h : 2 ^ 24 ≤ w ∨ w % 256 = 0) :
    ∃ i, decode k w = .ok i := by
  rw [decode, if_neg (by omega)]
  by_cases hw : wordIsWrite w = true
  · exact ⟨_, if_pos hw⟩
  · have hread : ¬ 2 ^ 24 ≤ w := fun hle => hw (decide_eq_true (by omega))
    have hv : wordValue w = 0 := BitVec.eq_of_toNat_eq (h.resolve_left hread)
    exact ⟨_, (if_neg hw).trans (if_pos hv)⟩

/-- Every word falls under exactly one of the three outcomes of the decoder. -/
theorem decode_outcomes (k : Kind) (w : Nat) :
    (2 ^ 25 ≤ w ∧ decode k w = .error .bitsAboveWord) ∨
    (w < 2 ^ 24 ∧ w % 256 ≠ 0 ∧ decode k w = .error .readWithValue) ∨
    (w < 2 ^ 25 ∧ (2 ^ 24 ≤ w ∨ w % 256 = 0) ∧ ∃ i, decode k w = .ok i) := by
  by_cases hbits : 2 ^ 25 ≤ w
  · exact .inl ⟨hbits, decode_bitsAboveWord hbits⟩
  · by_cases h : 2 ^ 24 ≤ w ∨ w % 256 = 0
    · exact .inr (.inr ⟨by omega, h, decode_ok (by omega) h⟩)
    · exact .inr (.inl ⟨by omega, by omega, decode_readWithValue (by omega) (by omega)⟩)

/-- A step performs the first of the coming operations as its phase has it (log 1, log 10). -/
theorem step_cons {s : State} {op : HostOp} {rest : List HostOp} (hpending : s.pending = op :: rest) :
    step s = perform op { s with pending := rest } := by
  rw [step, performNext, hpending]

theorem step_live {s : State} {op : HostOp} {rest : List HostOp} (hlive : s.phase = .live)
    (hpending : s.pending = op :: rest) : step s = performLive op { s with pending := rest } := by
  rw [step_cons hpending, perform, hlive]

/-- A live session's step on a transaction decodes its word. -/
theorem step_transaction {s : State} {rest : List HostOp} {w : Nat} (hlive : s.phase = .live)
    (hpending : s.pending = .transaction w :: rest) : step s = performWord w { s with pending := rest } :=
  step_live hlive hpending

theorem performWord_ok {s : State} {w : Nat} {i : Instr} (h : decode s.bus.kind w = .ok i) :
    performWord w s = exec i s := by
  rw [performWord, h]

theorem performWord_error {s : State} {w : Nat} {why : InvalidWord} (h : decode s.bus.kind w = .error why) :
    performWord w s = .refused (.invalidWord why) := by
  rw [performWord, h]

/-- Settles O4: of the three outcomes of the decoder one holds, and each excludes the others. -/
theorem wordsThatSpellNoTransactionAreRefused : Obligations.WordsThatSpellNoTransactionAreRefused := by
  constructor
  · intro k w
    rcases decode_outcomes k w with ⟨hw, h⟩ | ⟨hw, hv, h⟩ | ⟨hw, hv, i, h⟩ <;> rw [h] <;> simp <;> omega
  · intro s rest w hlive hpending
    rw [step_transaction hlive hpending]
    exact ⟨fun hw => performWord_error (decode_bitsAboveWord hw),
      fun hw hv => performWord_error (decode_readWithValue hw hv)⟩

/-- Settles O5: the decoder runs on each of the eleven words. -/
theorem spelledOutWordsDecode : Obligations.SpelledOutWordsDecode :=
  ⟨rfl, rfl, rfl, rfl, rfl, rfl, rfl, rfl, rfl, rfl, rfl⟩

/-- Settles O6: the step takes the operation from the coming ones, and a transaction runs what its word decodes to. -/
theorem stepRunsTheDecodedInstruction : Obligations.StepRunsTheDecodedInstruction := by
  intro s rest w i hlive hpending hdecode
  rw [step_transaction hlive hpending]
  exact performWord_ok hdecode

end Sys2Proof.Proofs

/-! PROOFS. The canonical form of the storage arrays (log 5): two arrays that read alike are the same list, and a second
write of the same byte changes nothing. -/

namespace Sys2Proof.Proofs
open Sys2Proof.Machine

/-- The canonical form of a list of cells is that of its tail, and its head below every cell of the tail. -/
theorem memory_wf_cons (c : Host.Cell) (m : Memory) :
    Memory.wf (c :: m) ↔ (∀ e ∈ m, c.1 < e.1) ∧ c.2 ≠ Memory.blank ∧ m.wf := by
  simp only [Memory.wf, List.pairwise_cons, List.forall_mem_cons]
  tauto

/-- Below the head of a canonical array nothing is listed. -/
theorem read_below_head {c : Host.Cell} {m : Memory} {p : Nat} (h : Memory.wf (c :: m)) (hp : p < c.1) :
    Memory.read (c :: m) p = Memory.blank := by
  obtain ⟨hhead, -, -⟩ := (memory_wf_cons c m).1 h
  refine Memory.read_eq_blank _ p fun e he => ?_
  rcases List.mem_cons.1 he with rfl | he
  · exact hp.ne'
  · exact (hp.trans (hhead e he)).ne'

/-- Behind the head of a canonical array its offset is not listed again. -/
theorem read_tail_head {c : Host.Cell} {m : Memory} (h : Memory.wf (c :: m)) : Memory.read m c.1 = Memory.blank := by
  obtain ⟨hhead, -, -⟩ := (memory_wf_cons c m).1 h
  exact Memory.read_eq_blank m c.1 fun e he => (hhead e he).ne'

theorem read_head (c : Host.Cell) (m : Memory) : Memory.read (c :: m) c.1 = c.2 := if_pos rfl

/-- The head of a canonical array holds a byte that an unlisted offset does not. -/
theorem read_head_ne_blank {c : Host.Cell} {m : Memory} (h : Memory.wf (c :: m)) :
    Memory.read (c :: m) c.1 ≠ Memory.blank := by
  obtain ⟨-, hblank, -⟩ := (memory_wf_cons c m).1 h
  rwa [read_head]

/-- Settles O16, by induction on the first array: the two heads list the same offset, since the array whose head comes
first holds a byte there that the other does not. -/
theorem canonicalMemoriesAreEqualByTheirBytes : Obligations.CanonicalMemoriesAreEqualByTheirBytes := by
  intro m
  induction m with
  | nil =>
    intro n _ hn hread
    cases n with
    | nil => rfl
    | cons e n => exact absurd (hread e.1).symm (read_head_ne_blank hn)
  | cons c m ih =>
    intro n hm hn hread
    cases n with
    | nil => exact absurd (hread c.1) (read_head_ne_blank hm)
    | cons e n =>
      have hoffset : c.1 = e.1 := by
        rcases lt_trichotomy c.1 e.1 with hlt | heq | hgt
        · exact absurd ((hread c.1).trans (read_below_head hn hlt)) (read_head_ne_blank hm)
        · exact heq
        · exact absurd ((hread e.1).symm.trans (read_below_head hm hgt)) (read_head_ne_blank hn)
      have hbyte : c.2 = e.2 := by rw [← read_head c m, hread c.1, hoffset, read_head]
      have htail (p : Nat) : Memory.read m p = Memory.read n p := by
        by_cases hp : c.1 = p
        · subst hp
          rw [read_tail_head hm, hoffset, read_tail_head hn]
        · have h := hread p
          rwa [Memory.read_cons, Memory.read_cons, if_neg hp, if_neg (hoffset ▸ hp)] at h
      obtain ⟨-, -, hm'⟩ := (memory_wf_cons c m).1 hm
      obtain ⟨-, -, hn'⟩ := (memory_wf_cons e n).1 hn
      rw [Prod.ext hoffset hbyte, ih n hm' hn' htail]

/-- A byte written twice is written once. -/
theorem write_write_self {m : Memory} (h : m.wf) (p : Nat) (v : Byte) : (m.write p v).write p v = m.write p v := by
  have hwf := Memory.write_wf p v h
  refine canonicalMemoriesAreEqualByTheirBytes _ _ (Memory.write_wf p v hwf) hwf fun q => ?_
  by_cases hq : q = p
  · rw [hq, Memory.read_write_self _ p v hwf, Memory.read_write_self _ p v h]
  · rw [Memory.read_write_ne _ p q v hq]

end Sys2Proof.Proofs

/-! PROOFS. Construction (70_reset_and_hazards.md R158, R159): what each step of the sequence stops, the errors in their
order (60_exceptions.md R150), and the bus that a construct builds. -/

namespace Sys2Proof.Proofs
open Sys2Proof.Machine

/-! ### The steps of the sequence -/

theorem parseHeader_tooShort {ref : List Byte} {img : Image} (h : img.size < 0x150) :
    parseHeader ref img = .error (.malformedHeader .tooShort) := if_pos h

theorem parseHeader_titleNotText {ref : List Byte} {img : Image} (hsize : 0x150 ≤ img.size)
    (htitle : validUtf8 (titleOf img) = false) : parseHeader ref img = .error (.malformedHeader .titleNotText) :=
  (if_neg (by omega)).trans (if_pos htitle)

theorem parseHeader_ok {ref : List Byte} {img : Image} (hsize : 0x150 ≤ img.size)
    (htitle : validUtf8 (titleOf img) = true) : parseHeader ref img = .ok (headerOf ref img) :=
  (if_neg (by omega)).trans (if_neg (by rw [htitle]; decide))

/-- The configuration of step 3: the one supplied, or the header's. -/
def chosenConfig (l : Launch) : Except ErrorKind BusConfig :=
  match l.config? with
  | some c => .ok c
  | none => configOf (headerOf l.logoRef l.image)

theorem chosenConfig_eq_ok_iff (l : Launch) (c : BusConfig) :
    chosenConfig l = .ok c ↔ l.config? = some c ∨ l.config? = none ∧ configOf (headerOf l.logoRef l.image) = .ok c := by
  unfold chosenConfig
  cases l.config? <;> simp

theorem chosenConfig_eq_error_iff (l : Launch) (e : ErrorKind) :
    chosenConfig l = .error e ↔ l.config? = none ∧ configOf (headerOf l.logoRef l.image) = .error e := by
  unfold chosenConfig
  cases l.config? <;> simp

theorem cartridgeOf_error {t : Byte} {e : ErrorKind} (h : cartridgeOf t = .error e) :
    e = .unsupportedControllerKind := by
  unfold cartridgeOf at h
  split_ifs at h
  exact (Except.error.inj h).symm

theorem ramSizeOf_error {c : Byte} {e : ErrorKind} (h : ramSizeOf c = .error e) :
    e = .unsupportedControllerKind := by
  unfold ramSizeOf at h
  split_ifs at h
  exact (Except.error.inj h).symm

/-- The only error of a configuration is UnsupportedControllerKind. -/
theorem configOf_error {h : Header} {e : ErrorKind} (he : configOf h = .error e) : e = .unsupportedControllerKind := by
  unfold configOf at he
  split at he
  · rename_i hcart
    exact Except.error.inj he ▸ cartridgeOf_error hcart
  · cases he
  · split at he
    · rename_i hram
      exact Except.error.inj he ▸ ramSizeOf_error hram
    · cases he

/-! ### What construct comes to -/

section Sequence
variable {l : Launch} (hwf : l.wellFormed = true)
include hwf

theorem construct_parseError {e : ErrorKind} (h : parseHeader l.logoRef l.image = .error e) :
    construct l = .error e := by
  simp only [construct, hwf, h, Bool.true_eq_false, if_false]

variable (hsize : 0x150 ≤ l.image.size) (htitle : validUtf8 (titleOf l.image) = true)
include hsize htitle

theorem construct_imageSizeUnsupported (h : l.image.size % 0x4000 ≠ 0) :
    construct l = .error .imageSizeUnsupported := by
  simp only [construct, hwf, parseHeader_ok hsize htitle, Bool.true_eq_false, if_false, if_pos (Or.inr h)]

variable (hbanks : l.image.size % 0x4000 = 0)
include hbanks

theorem construct_configError {e : ErrorKind} (h : chosenConfig l = .error e) : construct l = .error e := by
  obtain ⟨hnone, hconfig⟩ := (chosenConfig_eq_error_iff l e).1 h
  have hgood : ¬ (l.image.size = 0 ∨ l.image.size % 0x4000 ≠ 0) := by omega
  simp only [construct, hwf, parseHeader_ok hsize htitle, Bool.true_eq_false, if_false, if_neg hgood, hnone, hconfig]

theorem construct_buildWith {c : BusConfig} (h : chosenConfig l = .ok c) :
    construct l = buildWith l (headerOf l.logoRef l.image) c := by
  have hgood : ¬ (l.image.size = 0 ∨ l.image.size % 0x4000 ≠ 0) := by omega
  rcases (chosenConfig_eq_ok_iff l c).1 h with hsome | ⟨hnone, hconfig⟩
  · simp only [construct, hwf, parseHeader_ok hsize htitle, Bool.true_eq_false, if_false, if_neg hgood, hsome]
  · simp only [construct, hwf, parseHeader_ok hsize htitle, Bool.true_eq_false, if_false, if_neg hgood, hnone, hconfig]

end Sequence

/-- The outcomes of the sequence on a well-formed launch, each with the condition that leads to it. -/
theorem construct_cases {l : Launch} (hwf : l.wellFormed = true) :
    (l.image.size < 0x150 ∧ construct l = .error (.malformedHeader .tooShort)) ∨
    (0x150 ≤ l.image.size ∧ validUtf8 (titleOf l.image) = false ∧
      construct l = .error (.malformedHeader .titleNotText)) ∨
    (0x150 ≤ l.image.size ∧ validUtf8 (titleOf l.image) = true ∧ l.image.size % 0x4000 ≠ 0 ∧
      construct l = .error .imageSizeUnsupported) ∨
    (0x150 ≤ l.image.size ∧ validUtf8 (titleOf l.image) = true ∧ l.image.size % 0x4000 = 0 ∧
      chosenConfig l = .error .unsupportedControllerKind ∧ construct l = .error .unsupportedControllerKind) ∨
    (0x150 ≤ l.image.size ∧ validUtf8 (titleOf l.image) = true ∧ l.image.size % 0x4000 = 0 ∧
      ∃ c, chosenConfig l = .ok c ∧ construct l = buildWith l (headerOf l.logoRef l.image) c) := by
  by_cases hsize : l.image.size < 0x150
  · exact .inl ⟨hsize, construct_parseError hwf (parseHeader_tooShort hsize)⟩
  replace hsize : 0x150 ≤ l.image.size := by omega
  cases htitle : validUtf8 (titleOf l.image) with
  | false => exact .inr (.inl ⟨hsize, rfl, construct_parseError hwf (parseHeader_titleNotText hsize htitle)⟩)
  | true =>
    by_cases hbanks : l.image.size % 0x4000 = 0
    · cases hconfig : chosenConfig l with
      | error e =>
        obtain rfl := configOf_error ((chosenConfig_eq_error_iff l e).1 hconfig).2
        exact .inr (.inr (.inr (.inl
          ⟨hsize, rfl, hbanks, rfl, construct_configError hwf hsize htitle hbanks hconfig⟩)))
      | ok c =>
        exact .inr (.inr (.inr (.inr
          ⟨hsize, rfl, hbanks, c, rfl, construct_buildWith hwf hsize htitle hbanks hconfig⟩)))
    · exact .inr (.inr (.inl ⟨hsize, rfl, hbanks, construct_imageSizeUnsupported hwf hsize htitle hbanks⟩))

theorem buildWith_ne_error (l : Launch) (h : Header) (c : BusConfig) (e : ErrorKind) : buildWith l h c ≠ .error e := by
  unfold buildWith
  split_ifs <;> exact nofun

/-- Settles O54: of the five outcomes of the sequence one holds, and each excludes the conditions of the others. -/
theorem constructionErrorsComeInOrder : Obligations.ConstructionErrorsComeInOrder := by
  intro l hwf
  rw [← chosenConfig_eq_error_iff]
  rcases construct_cases hwf with ⟨hs, h⟩ | ⟨hs, ht, h⟩ | ⟨hs, ht, hb, h⟩ | ⟨hs, ht, hb, hc, h⟩ | ⟨hs, ht, hb, c, hc, h⟩
  · simp [h, Nat.not_le.2 hs, hs]
  · simp [h, Nat.not_lt.2 hs, hs, ht]
  · simp [h, Nat.not_lt.2 hs, hs, ht, hb]
  · simp [h, Nat.not_lt.2 hs, hs, ht, hb, hc]
  · simp [h, Nat.not_lt.2 hs, hs, ht, hb, hc, buildWith_ne_error]

/-! ### The bus that is built -/

/-- A configuration that 00_scope.md R7 admits. -/
theorem admittedConfig_iff (c : BusConfig) :
    admittedConfig c = true ↔ (c.kind = .none → c.ramSize = .absent) ∧ (c.battery = true → c.ramSize ≠ .absent) := by
  obtain ⟨k, r, b⟩ := c
  cases k <;> cases b <;> simp [admittedConfig]

theorem buildWith_admitted {l : Launch} {h : Header} {c : BusConfig} (hc : admittedConfig c = true)
    (hram : l.ramInit.below (ramBytes c.ramSize)) : buildWith l h c = .bus (Bus.fresh l c h) :=
  (if_neg (by rw [hc]; decide)).trans (if_pos hram)

theorem buildWith_eq_bus {l : Launch} {h : Header} {c : BusConfig} {b : Bus} (hb : buildWith l h c = .bus b) :
    admittedConfig c = true ∧ l.ramInit.below (ramBytes c.ramSize) ∧ b = Bus.fresh l c h := by
  unfold buildWith at hb
  split_ifs at hb with hc hram
  exact ⟨by simpa using hc, hram, (Built.bus.inj hb).symm⟩

theorem construct_illFormed {l : Launch} (h : l.wellFormed = false) : construct l = .refused .launchIllFormed :=
  if_pos h

/-- What a construct that gives a bus went through. -/
theorem construct_eq_bus {l : Launch} {b : Bus} (h : construct l = .bus b) :
    l.wellFormed = true ∧ 0x150 ≤ l.image.size ∧ validUtf8 (titleOf l.image) = true ∧ l.image.size % 0x4000 = 0 ∧
    ∃ c, admittedConfig c = true ∧ l.ramInit.below (ramBytes c.ramSize) ∧
      b = Bus.fresh l c (headerOf l.logoRef l.image) := by
  cases hwf : l.wellFormed with
  | false => rw [construct_illFormed hwf] at h; cases h
  | true =>
    rcases construct_cases hwf with ⟨-, e⟩ | ⟨-, -, e⟩ | ⟨-, -, -, e⟩ | ⟨-, -, -, -, e⟩ | ⟨hs, ht, hb, c, -, e⟩ <;>
      rw [e] at h
    case inr.inr.inr.inr => exact ⟨rfl, hs, ht, hb, c, buildWith_eq_bus h⟩
    all_goals cases h

/-- The canonical form of a launch, part by part. -/
theorem launch_wellFormed_iff (l : Launch) :
    l.wellFormed = true ↔ l.image.wf ∧ l.logoRef.length = 48 ∧ (l.initVram.wf ∧ l.initVram.below 0x2000) ∧
      (l.initWram.wf ∧ l.initWram.below 0x2000) ∧ (l.initHram.wf ∧ l.initHram.below 0x7F) ∧ l.ramInit.wf := by
  simp only [Launch.wellFormed, Bool.and_eq_true, decide_eq_true_iff, and_assoc]

/-- A fresh bus holds the image whole: its size is a number of banks. -/
theorem fresh_image {l : Launch} (h : l.image.size % 0x4000 = 0) (c : BusConfig) (hd : Header) :
    (Bus.fresh l c hd).image = l.image := by
  have hsize : (Bus.fresh l c hd).romBytes = l.image.size := Nat.div_mul_cancel (Nat.dvd_of_mod_eq_zero h)
  rw [Bus.image, hsize]
  rfl

/-- Settles O13: the parts of the invariant are the steps of the sequence, and the registers' reset values. -/
theorem constructedBusMeetsTheInvariant : Obligations.ConstructedBusMeetsTheInvariant := by
  intro l b h
  obtain ⟨hwf, hsize, htitle, hbanks, c, hc, hram, rfl⟩ := construct_eq_bus h
  obtain ⟨himage, hlogo, hvram, hwram, hhram, hxram⟩ := (launch_wellFormed_iff l).1 hwf
  obtain ⟨hkind, hbattery⟩ := (admittedConfig_iff c).1 hc
  have hregisters : (Bus.fresh l c (headerOf l.logoRef l.image)).registersLegal :=
    ⟨show (1 : BitVec 5) ≠ 0 by decide, fun _ => rfl, fun _ => rfl, fun _ => ⟨rfl, rfl, rfl, rfl, rfl⟩⟩
  have hbank : 1 ≤ l.image.size / 0x4000 := by omega
  refine ⟨hregisters, ⟨hbank, ?_, ⟨hxram, hram⟩, hvram, hwram, hhram⟩, ⟨hkind, hbattery, hlogo⟩, ?_, htitle⟩
  · rw [fresh_image hbanks]; exact himage
  · rw [fresh_image hbanks]; rfl

end Sys2Proof.Proofs

/-! PROOFS. What a bus can become (41_mbc_write.md R92; 10_state.md section 4): every move of one operation keeps the
configuration, the ROM, the header and the invariant. -/

namespace Sys2Proof.Proofs
open Sys2Proof.Machine

/-! ### A move of the bus -/

theorem sameConfig_refl (b : Bus) : b.sameConfig b := ⟨rfl, rfl, rfl, rfl, rfl, rfl, rfl⟩

theorem sameRegisters_refl (b : Bus) : b.sameRegisters b := ⟨rfl, rfl, rfl, rfl, rfl⟩

/-- No move changes the configuration, the ROM or the header. -/
theorem busMove_sameConfig {b c : Bus} (h : BusMove b c) : b.sameConfig c := by
  cases h with
  | same | latch d | low5 d => exact sameConfig_refl b
  | bankHi v => simp [Bus.sameConfig]
  | mode m => simp [Bus.sameConfig]
  | cell r p d _ => exact sameConfig_setRegion b r _

/-- The laws of the registers that hold for either kind (10_state.md R27, R28, R29). -/
def fieldsLegal (b : Bus) : Prop :=
  b.low5 ≠ 0 ∧ (b.bankingMode = .ramBanking → b.high2 = 0) ∧ (b.bankingMode = .romBanking → b.ramBankSelector = 0)

theorem low5Of_ne_zero (d : Byte) : low5Of d ≠ 0 := fun e => low5Of_toNat_ne_zero d (congrArg BitVec.toNat e)

theorem busMove_fieldsLegal {b c : Bus} (h : BusMove b c) (hb : fieldsLegal b) : fieldsLegal c := by
  obtain ⟨hlow, hram, hrom⟩ := hb
  cases h with
  | same => exact ⟨hlow, hram, hrom⟩
  | latch d => exact ⟨hlow, hram, hrom⟩
  | low5 d => exact ⟨low5Of_ne_zero d, hram, hrom⟩
  | bankHi v =>
    refine ⟨by rwa [Bus.setBankHi_low5], fun h => ?_, fun h => ?_⟩ <;> rw [Bus.setBankHi_bankingMode] at h
    · rw [Bus.setBankHi_high2, h]; exact hram h
    · rw [Bus.setBankHi_ramBankSelector, if_pos h]; exact hrom h
  | mode m =>
    refine ⟨by rwa [Bus.setMode_low5], fun h => ?_, fun h => ?_⟩ <;> rw [Bus.setMode_bankingMode] at h
    · rw [Bus.setMode_high2, h]; rfl
    · rw [Bus.setMode_ramBankSelector, if_pos h]
  | cell r p d _ => simpa [fieldsLegal] using ⟨hlow, hram, hrom⟩

/-- The idle registers of a None controller (10_state.md R20). -/
def registersIdle (b : Bus) : Prop :=
  b.low5 = 1 ∧ b.high2 = 0 ∧ b.ramBankSelector = 0 ∧ b.bankingMode = .romBanking ∧ b.ramWriteEnabled = false

theorem registersLegal_iff (b : Bus) : b.registersLegal ↔ fieldsLegal b ∧ (b.kind = .none → registersIdle b) := by
  simp only [Bus.registersLegal, fieldsLegal, registersIdle, and_assoc]

theorem registersIdle_of_sameRegisters {b c : Bus} (h : b.sameRegisters c) (hb : registersIdle b) :
    registersIdle c := by
  obtain ⟨h1, h2, h3, h4, h5⟩ := h
  rwa [registersIdle, h1, h2, h3, h4, h5]

theorem image_of_sameConfig {b c : Bus} (h : b.sameConfig c) : c.image = b.image := by
  obtain ⟨-, hbanks, hrom, -⟩ := h
  rw [Bus.image, Bus.image, Bus.romBytes, Bus.romBytes, hbanks, hrom]

/-- The invariant of a bus, whatever the registers and the arrays become as long as they stay legal. -/
theorem inv_of_sameConfig {b c : Bus} (hb : b.Inv) (hconfig : b.sameConfig c) (hregisters : c.registersLegal)
    (hregions : ∀ r, c.regionLegal r) : c.Inv := by
  obtain ⟨-, ⟨hbanks, hrom, -⟩, hlegal, hheader⟩ := hb
  have himage : c.image = b.image := image_of_sameConfig hconfig
  obtain ⟨hkind', hbanks', -, hsize', hbattery', hlogo', hheader'⟩ := hconfig
  refine ⟨hregisters, ⟨by rwa [hbanks'], by rwa [himage], hregions _, hregions _, hregions _, hregions _⟩, ?_, ?_⟩
  · rwa [Bus.configLegal, hkind', hsize', hbattery', hlogo']
  · rwa [Bus.headerLegal, himage, hheader', hlogo']

theorem regionLegal_of_inv {b : Bus} (h : b.Inv) (r : Region) : b.regionLegal r := by
  obtain ⟨-, ⟨-, -, hxram, hvram, hwram, hhram⟩, -⟩ := h
  cases r with
  | xram => exact hxram
  | vram => exact hvram
  | wram => exact hwram
  | hram => exact hhram

/-- A move keeps the invariant, if on a None controller it leaves the registers alone. -/
theorem busMove_inv {b c : Bus} (h : BusMove b c) (hnone : b.kind = .none → b.sameRegisters c) (hb : b.Inv) :
    c.Inv := by
  have hconfig := busMove_sameConfig h
  refine inv_of_sameConfig hb hconfig ?_ fun r => h.regionLegal r (regionLegal_of_inv hb r)
  obtain ⟨hregisters, -⟩ := hb
  obtain ⟨hfields, hidle⟩ := (registersLegal_iff b).1 hregisters
  refine (registersLegal_iff c).2 ⟨busMove_fieldsLegal h hfields, fun hk => ?_⟩
  have hk' : b.kind = .none := hconfig.1 ▸ hk
  exact registersIdle_of_sameRegisters (hnone hk') (hidle hk')

/-! ### The operations of a None controller -/

theorem finish_bus {s t : State} {b : Bus} {r : Response} (h : finish s b r = .next t) : t.bus = b := by
  rw [finish_eq_next h]; rfl

theorem readRom_bus {p : Nat} {s t : State} (h : readRom p s = .next t) : t.bus = s.bus := by
  obtain ⟨-, e⟩ | ⟨-, e⟩ := readRom_cases p s <;> rw [e] at h
  · exact finish_bus h
  · cases h

theorem readCell_bus {r : Region} {p : Nat} {s t : State} (h : readCell r p s = .next t) : t.bus = s.bus := by
  obtain ⟨-, e⟩ | ⟨-, e⟩ := readCell_cases r p s <;> rw [e] at h
  · exact finish_bus h
  · cases h

theorem writeCell_sameRegisters {r : Region} {p : Nat} {d : Byte} {s t : State} (h : writeCell r p d s = .next t) :
    s.bus.sameRegisters t.bus := by
  obtain ⟨-, e⟩ | ⟨-, e⟩ := writeCell_cases r p d s <;> rw [e] at h
  · rw [finish_bus h]; exact sameRegisters_setRegion _ _ _
  · cases h

/-- No operation of a None bus changes a register (41_mbc_write.md R93, R95). -/
theorem exec_none_sameRegisters {i : Instr} {s t : State} (hkind : i.op.ofKind .none = true) (h : exec i s = .next t) :
    s.bus.sameRegisters t.bus := by
  have keeps (e : t.bus = s.bus) : s.bus.sameRegisters t.bus := e ▸ sameRegisters_refl s.bus
  cases i with
  | rdRom0 a | rdRomxNone a => exact keeps (readRom_bus h)
  | rdVram a | rdWram a | rdEcho a | rdHram a => exact keeps (readCell_bus h)
  | rdXramNone a => cases h; exact sameRegisters_refl s.bus
  | rdUnh a | wrCtrlNone a d | wrXramNone a d | wrUnh a d => exact keeps (finish_bus h)
  | wrVram a d | wrWram a d | wrEcho a d | wrHram a d => exact writeCell_sameRegisters h
  | rdRomxMbc1 a | rdXramMbc1 a | wrRamen a d | wrRomlo a d | wrBankhi a d | wrMode a d | wrXramMbc1 a d => cases hkind

/-- What a word's operation does to the bus. -/
theorem performWord_busMove {w : Nat} {s t : State} (h : performWord w s = .next t) :
    Answered s t ∧ (s.bus.kind = .none → s.bus.sameRegisters t.bus) := by
  cases hdecode : decode s.bus.kind w with
  | error why => rw [performWord_error hdecode] at h; cases h
  | ok i =>
    rw [performWord_ok hdecode] at h
    refine ⟨exec_answered h, fun hk => exec_none_sameRegisters ?_ h⟩
    obtain ⟨hwf, -⟩ := decodedInstructionIsWellFormedAndEncodesBack _ _ _ hdecode
    rw [ofKind_iff, ← hk]
    exact ((wellFormed_iff _ _).1 hwf).1

end Sys2Proof.Proofs

/-! PROOFS. One step of a session (44_host_interface.md R127, R139; log 10): everything it can do, said once, and what
follows for the lists, the invariant, the configuration and the responses. -/

namespace Sys2Proof.Proofs
open Sys2Proof.Machine

/-- What one operation makes of the session and its bus. -/
inductive SessionMove (s t : State) : Prop where
  | built (l : Launch) (h : construct l = .bus t.bus) (hs : s.phase = .unbuilt) (ht : t.phase = .live)
  | raised (hs : s.phase = .unbuilt) (ht : t.phase = .unbuilt)
  | moved (h : BusMove s.bus t.bus) (hnone : s.bus.kind = .none → s.bus.sameRegisters t.bus) (hs : s.phase = .live)
      (ht : t.phase = .live)
  | restored (data : List Byte) (h : restoreRam s.bus data = .ok t.bus) (hs : s.phase = .live) (ht : t.phase = .live)
  | destroyed (hs : s.phase = .live) (ht : t.phase = .destroyed)

/-- What performing an operation does: nothing is taken from `pending`, one response is given, which surfaces no
recovered condition, and the session moves. -/
structure Performed (s t : State) : Prop where
  pending : t.pending = s.pending
  shown   : ∃ r, t.shown = s.shown ++ [r] ∧ r.surfacesRecovered = false
  move    : SessionMove s t

theorem surfacesRecovered_of_transaction {r : Response} (h : r.ofTransaction = true) : r.surfacesRecovered = false := by
  cases r with
  | byte v | done | unhandled => rfl
  | bus | nothing | dump _ | answer _ | report _ _ | error _ => cases h

/-- An operation of a live session that leaves the bus as it is. -/
theorem finish_performed {s t : State} {r : Response} (hlive : s.phase = .live) (h : finish s s.bus r = .next t)
    (hr : r.surfacesRecovered = false) : Performed s t := by
  obtain rfl := finish_eq_next h
  exact ⟨rfl, ⟨r, rfl, hr⟩, .moved .same (fun _ => sameRegisters_refl _) hlive hlive⟩

theorem performConstruct_performed {l : Launch} {s t : State} (hs : s.phase = .unbuilt)
    (h : performConstruct l s = .next t) : Performed s t := by
  unfold performConstruct at h
  cases hl : construct l with
  | bus b =>
    rw [hl] at h
    cases h
    exact ⟨rfl, ⟨_, rfl, rfl⟩, .built l hl hs rfl⟩
  | error e =>
    rw [hl] at h
    cases h
    refine ⟨rfl, ⟨_, rfl, ?_⟩, .raised hs hs⟩
    cases hwf : l.wellFormed with
    | false => rw [construct_illFormed hwf] at hl; cases hl
    | true =>
      obtain ⟨-, -, -, -, hkinds⟩ := constructionErrorsComeInOrder l hwf
      rcases hkinds e hl with rfl | rfl | rfl | rfl <;> rfl
  | refused r => rw [hl] at h; cases h

theorem saveRam_error {b : Bus} {e : ErrorKind} (h : saveRam b = .error e) : e = .notPersistent := by
  unfold saveRam at h
  split_ifs at h
  exact (Except.error.inj h).symm

theorem restoreRam_error {b : Bus} {data : List Byte} {e : ErrorKind} (h : restoreRam b data = .error e) :
    e = .notPersistent ∨ e = .saveSizeMismatch := by
  unfold restoreRam at h
  split_ifs at h
  · exact .inl (Except.error.inj h).symm
  · exact .inr (Except.error.inj h).symm

theorem performSave_performed {s t : State} (hlive : s.phase = .live) (h : performSave s = .next t) :
    Performed s t := by
  unfold performSave at h
  cases hsave : saveRam s.bus with
  | ok data => rw [hsave] at h; exact finish_performed hlive h rfl
  | error e =>
    obtain rfl := saveRam_error hsave
    rw [hsave] at h; exact finish_performed hlive h rfl

theorem performRestore_performed {data : List Byte} {s t : State} (hlive : s.phase = .live)
    (h : performRestore data s = .next t) : Performed s t := by
  unfold performRestore at h
  cases hrestore : restoreRam s.bus data with
  | ok b =>
    rw [hrestore] at h
    cases h
    exact ⟨rfl, ⟨_, rfl, rfl⟩, .restored data hrestore hlive hlive⟩
  | error e =>
    rw [hrestore] at h
    rcases restoreRam_error hrestore with rfl | rfl <;> exact finish_performed hlive h rfl

theorem performLive_performed {op : HostOp} {s t : State} (hlive : s.phase = .live) (h : performLive op s = .next t) :
    Performed s t := by
  cases op with
  | construct l => cases h
  | transaction w =>
    obtain ⟨⟨hphase, hpending, ⟨r, hshown, hr⟩, hbus⟩, hnone⟩ := performWord_busMove h
    exact ⟨hpending, ⟨r, hshown, surfacesRecovered_of_transaction hr⟩, .moved hbus hnone hlive (hphase.trans hlive)⟩
  | query q => exact finish_performed hlive h rfl
  | save => exact performSave_performed hlive h
  | restore data => exact performRestore_performed hlive h
  | debugReport => exact finish_performed hlive h rfl
  | destroy => cases h; exact ⟨rfl, ⟨_, rfl, rfl⟩, .destroyed hlive rfl⟩

theorem perform_performed {op : HostOp} {s t : State} (h : perform op s = .next t) : Performed s t := by
  unfold perform at h
  cases hphase : s.phase with
  | unbuilt =>
    rw [hphase] at h
    cases op with
    | construct l => exact performConstruct_performed hphase h
    | transaction _ | query _ | save | restore _ | debugReport | destroy => cases h
  | live => rw [hphase] at h; exact performLive_performed hphase h
  | destroyed => rw [hphase] at h; cases h

theorem step_nil {s : State} (hpending : s.pending = []) : step s = .refused .runEnded := by
  rw [step, performNext, hpending]

/-- Everything a step can do: it performs the first of the coming operations at the state without it. -/
theorem step_eq_next {s t : State} (h : step s = .next t) :
    ∃ op rest, s.pending = op :: rest ∧ Performed { s with pending := rest } t := by
  cases hpending : s.pending with
  | nil => rw [step_nil hpending] at h; cases h
  | cons op rest => rw [step_cons hpending] at h; exact ⟨op, rest, rfl, perform_performed h⟩

/-- The move of the session in a step. -/
theorem step_sessionMove {s t : State} (h : step s = .next t) : SessionMove s t := by
  obtain ⟨op, rest, -, -, -, hmove⟩ := step_eq_next h
  cases hmove with
  | built l h hs ht => exact .built l h hs ht
  | raised hs ht => exact .raised hs ht
  | moved h hnone hs ht => exact .moved h hnone hs ht
  | restored data h hs ht => exact .restored data h hs ht
  | destroyed hs ht => exact .destroyed hs ht

/-- Settles O10: the operation performed is the first of `pending`, and it gives one response. -/
theorem oneStepIsOneOperation : Obligations.OneStepIsOneOperation := by
  intro s t h
  obtain ⟨op, rest, hpending, hp, ⟨r, hshown, -⟩, -⟩ := step_eq_next h
  exact ⟨op, r, hp ▸ hpending, hshown⟩

/-- Settles O15: the response of the step is one more, and surfaces no recovered condition. -/
theorem recoveredConditionsNeverSurface : Obligations.RecoveredConditionsNeverSurface := by
  intro s t hshown h
  obtain ⟨op, rest, -, -, ⟨r, ht, hr⟩, -⟩ := step_eq_next h
  rw [ht, List.forall_mem_append]
  exact ⟨hshown, List.forall_mem_singleton.2 hr⟩

/-! ### The invariant and the configuration -/

theorem restoreRam_eq_ok {b c : Bus} {data : List Byte} (h : restoreRam b data = .ok c) :
    data.length = ramBytes b.ramSize ∧ c = b.setRegion .xram (Memory.ofBytes data) := by
  unfold restoreRam at h
  split_ifs at h with hbattery hlength
  exact ⟨not_not.1 hlength, (Except.ok.inj h).symm⟩

/-- An array of its size in canonical form may replace another. -/
theorem regionLegal_setRegion {b : Bus} {r : Region} {m : Memory} (hwf : m.wf) (hbelow : m.below (b.regionBytes r))
    (hb : ∀ q, b.regionLegal q) (q : Region) : (b.setRegion r m).regionLegal q := by
  by_cases hq : q = r
  · subst hq
    rw [Bus.regionLegal, Bus.region_setRegion_self, Bus.regionBytes_setRegion]
    exact ⟨hwf, hbelow⟩
  · rw [Bus.regionLegal, Bus.region_setRegion_ne b r q m hq, Bus.regionBytes_setRegion]
    exact hb q

theorem restoreRam_inv {b c : Bus} {data : List Byte} (h : restoreRam b data = .ok c) (hb : b.Inv) : c.Inv := by
  obtain ⟨hlength, rfl⟩ := restoreRam_eq_ok h
  have hbelow : (Memory.ofBytes data).below (b.regionBytes .xram) := by
    rw [Bus.regionBytes, ← hlength]; exact Memory.ofBytes_below data
  refine inv_of_sameConfig hb (sameConfig_setRegion b _ _) ?_
    (regionLegal_setRegion (Memory.ofBytes_wf data) hbelow (regionLegal_of_inv hb))
  obtain ⟨hregisters, -⟩ := hb
  exact hregisters

/-- Settles O11, by the moves of a session: a built bus meets the invariant, and the other moves that leave the session
live keep it. -/
theorem everyStepKeepsTheInvariant : Obligations.EveryStepKeepsTheInvariant := by
  intro s t hinv h hlive
  cases step_sessionMove h with
  | built l hl _ _ => exact constructedBusMeetsTheInvariant l t.bus hl
  | raised _ ht => rw [ht] at hlive; cases hlive
  | moved hmove hnone hs _ => exact busMove_inv hmove hnone (hinv hs)
  | restored data hr hs _ => exact restoreRam_inv hr (hinv hs)
  | destroyed _ ht => rw [ht] at hlive; cases hlive

/-- Settles O14: the moves between live states are those of a transaction and of restore. -/
theorem noStepChangesTheRomOrTheConfiguration : Obligations.NoStepChangesTheRomOrTheConfiguration := by
  intro s t hs h ht
  cases step_sessionMove h with
  | built _ _ hs' _ => rw [hs'] at hs; cases hs
  | raised hs' _ => rw [hs'] at hs; cases hs
  | moved hmove _ _ _ => exact busMove_sameConfig hmove
  | restored data hr _ _ =>
    obtain ⟨-, hbus⟩ := restoreRam_eq_ok hr
    rw [hbus]
    exact sameConfig_setRegion _ _ _
  | destroyed _ ht' => rw [ht'] at ht; cases ht

/-- Settles O12: the invariant is decidable, and the reset bus meets each part. -/
theorem resetMeetsTheInvariant : Obligations.ResetMeetsTheInvariant := by
  unfold Obligations.ResetMeetsTheInvariant
  decide

end Sys2Proof.Proofs

/-! PROOFS. The registers of a None controller are not observable (10_state.md R20): a step of the machine without
registers is the step of the machine, its result without registers. -/

namespace Sys2Proof.Proofs
open Sys2Proof.Machine

@[simp] theorem region_withoutRegisters (b : Bus) (r : Region) : b.withoutRegisters.region r = b.region r := by
  cases r <;> rfl

@[simp] theorem regionBytes_withoutRegisters (b : Bus) (r : Region) :
    b.withoutRegisters.regionBytes r = b.regionBytes r := by
  cases r <;> rfl

theorem setRegion_withoutRegisters (b : Bus) (r : Region) (m : Memory) :
    b.withoutRegisters.setRegion r m = (b.setRegion r m).withoutRegisters := by
  cases r <;> rfl

/-! ### The shared operations -/

theorem finish_withoutRegisters (s : State) (b : Bus) (r : Response) :
    finish s.withoutRegisters b.withoutRegisters r = outWithoutRegisters (finish s b r) := rfl

theorem readRom_withoutRegisters (p : Nat) (s : State) :
    readRom p s.withoutRegisters = outWithoutRegisters (readRom p s) := by
  rw [readRom, readRom, apply_ite outWithoutRegisters]
  rfl

theorem readCell_withoutRegisters (r : Region) (p : Nat) (s : State) :
    readCell r p s.withoutRegisters = outWithoutRegisters (readCell r p s) := by
  rw [readCell, readCell, apply_ite outWithoutRegisters, State.withoutRegisters_bus, regionBytes_withoutRegisters,
    region_withoutRegisters]
  rfl

theorem writeCell_withoutRegisters (r : Region) (p : Nat) (d : Byte) (s : State) :
    writeCell r p d s.withoutRegisters = outWithoutRegisters (writeCell r p d s) := by
  rw [writeCell, writeCell, apply_ite outWithoutRegisters, State.withoutRegisters_bus, regionBytes_withoutRegisters,
    region_withoutRegisters, setRegion_withoutRegisters, finish_withoutRegisters]
  rfl

/-- No operation of a None bus looks at a register. -/
theorem exec_withoutRegisters {i : Instr} (hkind : i.op.ofKind .none = true) (s : State) :
    exec i s.withoutRegisters = outWithoutRegisters (exec i s) := by
  cases i with
  | rdRom0 a | rdRomxNone a => exact readRom_withoutRegisters _ s
  | rdVram a | rdWram a | rdEcho a | rdHram a => exact readCell_withoutRegisters _ _ s
  | rdXramNone a | rdUnh a | wrCtrlNone a d | wrXramNone a d | wrUnh a d => rfl
  | wrVram a d | wrWram a d | wrEcho a d | wrHram a d => exact writeCell_withoutRegisters _ _ d s
  | rdRomxMbc1 a | rdXramMbc1 a | wrRamen a d | wrRomlo a d | wrBankhi a d | wrMode a d | wrXramMbc1 a d => cases hkind

/-! ### The operations of a live session -/

theorem performWord_withoutRegisters {s : State} (hkind : s.bus.kind = .none) (w : Nat) :
    performWord w s.withoutRegisters = outWithoutRegisters (performWord w s) := by
  have hkind' : s.withoutRegisters.bus.kind = .none := hkind
  cases hdecode : decode .none w with
  | error why =>
    rw [performWord_error (by rwa [hkind']), performWord_error (by rwa [hkind])]
    rfl
  | ok i =>
    rw [performWord_ok (by rwa [hkind']), performWord_ok (by rwa [hkind])]
    obtain ⟨hwf, -⟩ := decodedInstructionIsWellFormedAndEncodesBack _ _ _ hdecode
    exact exec_withoutRegisters ((ofKind_iff _ _).2 ((wellFormed_iff _ _).1 hwf).1) s

theorem performSave_withoutRegisters (s : State) :
    performSave s.withoutRegisters = outWithoutRegisters (performSave s) := by
  have hsave : saveRam s.withoutRegisters.bus = saveRam s.bus := rfl
  rw [performSave, performSave, hsave]
  cases saveRam s.bus <;> rfl

theorem restoreRam_withoutRegisters (b : Bus) (data : List Byte) :
    restoreRam b.withoutRegisters data = (restoreRam b data).map Bus.withoutRegisters := by
  rw [restoreRam, restoreRam, apply_ite (Except.map Bus.withoutRegisters), apply_ite (Except.map Bus.withoutRegisters)]
  rfl

theorem performRestore_withoutRegisters (data : List Byte) (s : State) :
    performRestore data s.withoutRegisters = outWithoutRegisters (performRestore data s) := by
  rw [performRestore, performRestore, State.withoutRegisters_bus, restoreRam_withoutRegisters]
  cases restoreRam s.bus data <;> rfl

theorem performLive_withoutRegisters {s : State} (hkind : s.bus.kind = .none) (op : HostOp) :
    performLive op s.withoutRegisters = outWithoutRegisters (performLive op s) := by
  cases op with
  | transaction w => exact performWord_withoutRegisters hkind w
  | save => exact performSave_withoutRegisters s
  | restore data => exact performRestore_withoutRegisters data s
  | construct l | query q | debugReport | destroy => rfl

/-- The simulation: the step of the machine without registers. -/
theorem step_withoutRegisters {s : State} (hlive : s.phase = .live) (hkind : s.bus.kind = .none) :
    step s.withoutRegisters = outWithoutRegisters (step s) := by
  have hlive' : s.withoutRegisters.phase = .live := hlive
  cases hpending : s.pending with
  | nil =>
    rw [step_nil hpending, step_nil (s := s.withoutRegisters) hpending]
    rfl
  | cons op rest =>
    rw [step_live hlive hpending, step_live hlive' (rest := rest) hpending]
    exact performLive_withoutRegisters (s := { s with pending := rest }) hkind op

/-- Settles O45: the step of each machine, its result without registers, is the step of the one machine that both are
without registers. -/
theorem noneRegistersAreNotObservable : Obligations.NoneRegistersAreNotObservable := by
  intro s t hlive hkind hsame
  have hlive' : t.phase = .live := by rw [← State.withoutRegisters_phase, ← hsame]; exact hlive
  have hkind' : t.bus.kind = .none := by
    have h : s.withoutRegisters.bus.kind = t.withoutRegisters.bus.kind := by rw [hsame]
    exact h ▸ hkind
  rw [← step_withoutRegisters hlive hkind, hsame, step_withoutRegisters hlive' hkind']

end Sys2Proof.Proofs

/-! PROOFS. The single operations of the MBC, in plain arithmetic: the None high window (42_mbc_read.md R101), the RAM
window of each size, read and written (R102 to R104; 41_mbc_write.md R94, R95), and the bank registers (R89 to R93). -/

namespace Sys2Proof.Proofs
open Sys2Proof.Machine

/-! ### The high window of a None controller -/

theorem exec_rdRomxNone (a : Addr) (s : State) : exec (.rdRomxNone a) s = readHighWindow s.bus.noneRomBank a s := rfl

/-- Settles O19: the bank is 1 mod N, which is 1 from two banks on and 0 for one. -/
theorem noneHighWindowIsBankOne : Obligations.NoneHighWindowIsBankOne := by
  intro s a hlo hhi
  rw [exec_rdRomxNone]
  constructor <;> intro hbanks
  · have hbank : s.bus.noneRomBank = 1 := Nat.mod_eq_of_lt hbanks
    have hoffset : 1 * 0x4000 + (a.toNat - 0x4000) = a.toNat := by omega
    rw [hbank, readHighWindow_of_lt hlo hhi (by omega), finish_bus_self, hoffset]
  · have hbank : s.bus.noneRomBank = 0 := by rw [Bus.noneRomBank, hbanks]
    rw [hbank, readHighWindow_of_lt hlo hhi (by omega), finish_bus_self, Nat.zero_mul, Nat.zero_add]

/-! ### The offset of the RAM window -/

theorem ramPhys_eq_mod {a : Addr} (h : 0xA000 ≤ a.toNat) (b : Bus) :
    b.ramPhys a = (b.ramBankSelector.toNat * 0x2000 + (a.toNat - 0xA000)) % ramBytes b.ramSize := by
  have hoffset : offsetFrom 0xA000 a = a.toNat - 0xA000 := offsetFrom_eq_sub h
  rw [Bus.ramPhys, hoffset]

/-- Four banks of 8 KiB: nothing is reduced. -/
theorem ramPhys_kib32 {a : Addr} {b : Bus} (hlo : 0xA000 ≤ a.toNat) (hhi : a.toNat < 0xC000) (h : b.ramSize = .kib32) :
    b.ramPhys a = b.ramBankSelector.toNat * 0x2000 + (a.toNat - 0xA000) := by
  have hsel : b.ramBankSelector.toNat < 4 := b.ramBankSelector.isLt
  rw [ramPhys_eq_mod hlo, h, ramBytes, Nat.mod_eq_of_lt (by omega)]

/-- One bank of 8 KiB: the selector drops out (D13). -/
theorem ramPhys_kib8 {a : Addr} {b : Bus} (hlo : 0xA000 ≤ a.toNat) (hhi : a.toNat < 0xC000) (h : b.ramSize = .kib8) :
    b.ramPhys a = a.toNat - 0xA000 := by
  rw [ramPhys_eq_mod hlo, h, ramBytes, Nat.mul_add_mod_self_right, Nat.mod_eq_of_lt (by omega)]

/-- A quarter of a bank, repeated (D13). -/
theorem ramPhys_kib2 {a : Addr} {b : Bus} (hlo : 0xA000 ≤ a.toNat) (h : b.ramSize = .kib2) :
    b.ramPhys a = (a.toNat - 0xA000) % 0x800 := by
  rw [ramPhys_eq_mod hlo, h, ramBytes]
  omega

/-- Settles O20: with RAM the read is the byte at `ramPhys`, which is computed for each size. -/
theorem ramWindowReadsTheSelectedBank : Obligations.RamWindowReadsTheSelectedBank := by
  intro s a hlo hhi
  refine ⟨fun h => ?_, fun h => ?_, fun h => ?_⟩ <;>
    rw [exec_rdXramMbc1_of_ram (by rw [h]; decide), finish_bus_self]
  · rw [ramPhys_kib32 hlo hhi h]
  · rw [ramPhys_kib8 hlo hhi h]
  · rw [ramPhys_kib2 hlo h]

/-! ### A RAM window with no RAM -/

theorem exec_rdXramMbc1_of_noRam {s : State} (h : s.bus.ramSize = .absent) (a : Addr) :
    exec (.rdXramMbc1 a) s = drawOpenBus s :=
  if_neg (by rw [h]; decide)

theorem exec_rdXramNone (a : Addr) (s : State) : exec (.rdXramNone a) s = drawOpenBus s := rfl

theorem drawOpenBus_eq_next (s : State) :
    drawOpenBus s =
      .next { s with draws := s.draws + 1, shown := s.shown ++ [.byte (Config.openBus s.draws)] } := rfl

/-- Settles O22: both reads are the draw. -/
theorem ramWindowWithoutRamDraws : Obligations.RamWindowWithoutRamDraws := by
  intro s a
  refine ⟨fun h => ?_, ?_⟩
  · rw [exec_rdXramMbc1_of_noRam h, drawOpenBus_eq_next]
  · rw [exec_rdXramNone, drawOpenBus_eq_next]

/-! ### The control writes -/

/-- Settles O25: the new low field in plain arithmetic, as a value of five bits. -/
theorem romLowSetsLow5 : Obligations.RomLowSetsLow5 := by
  intro s a d
  have hlow : low5Of d = BitVec.ofNat 5 (if d.toNat % 32 = 0 then 1 else d.toNat % 32) := by
    rw [← low5Of_toNat, BitVec.ofNat_toNat, BitVec.setWidth_eq]
  rw [exec_wrRomlo, hlow]
  rfl

theorem setBankHi_romBanking {b : Bus} (h : b.bankingMode = .romBanking) (v : BitVec 2) :
    b.setBankHi v = { b with high2 := v } := by
  unfold Bus.setBankHi
  split <;> simp_all

theorem setBankHi_ramBanking {b : Bus} (h : b.bankingMode = .ramBanking) (v : BitVec 2) :
    b.setBankHi v = { b with ramBankSelector := v } := by
  unfold Bus.setBankHi
  split <;> simp_all

/-- Settles O26: the mode picks the field, and the two bits are the value modulo 4. -/
theorem bankHighSetsOneOfTwoFields : Obligations.BankHighSetsOneOfTwoFields := by
  intro s a d
  have hbits : valueBank2 d = BitVec.ofNat 2 (d.toNat % 4) := by
    rw [← valueBank2_toNat, BitVec.ofNat_toNat, BitVec.setWidth_eq]
  rw [exec_wrBankhi, hbits]
  constructor <;> intro hmode
  · rw [setBankHi_romBanking hmode]; rfl
  · rw [setBankHi_ramBanking hmode]; rfl

/-- The mode that a value selects is decided by its parity (D6). -/
theorem modeOf_eq_ite (d : Byte) : modeOf d = if d.toNat % 2 = 0 then .romBanking else .ramBanking := by
  have hbit : (valueMode d).toNat = d.toNat % 2 := BitVec.toNat_setWidth 1 d
  have hzero : valueMode d = 0 ↔ d.toNat % 2 = 0 := by rw [← hbit, ← BitVec.toNat_inj]; rfl
  simp only [modeOf, hzero]

/-- Settles O27: the parity picks the mode, and `setMode` clears the other field. -/
theorem modeWriteForcesTheOtherField : Obligations.ModeWriteForcesTheOtherField := by
  intro s a d
  rw [exec_wrMode, modeOf_eq_ite]
  constructor <;> intro hparity
  · rw [if_pos hparity]; rfl
  · rw [if_neg (by omega)]; rfl

theorem exec_wrCtrlNone (a : Addr) (d : Byte) (s : State) : exec (.wrCtrlNone a d) s = finish s s.bus .done := rfl

theorem exec_wrXramNone (a : Addr) (d : Byte) (s : State) : exec (.wrXramNone a d) s = finish s s.bus .done := rfl

/-- Settles O28: neither write touches the bus. -/
theorem noneControllerIgnoresWrites : Obligations.NoneControllerIgnoresWrites := by
  intro s a d
  rw [exec_wrCtrlNone, exec_wrXramNone, finish_bus_self]
  exact ⟨rfl, rfl⟩

/-! ### RAM-window writes of an MBC1 -/

theorem exec_wrXramMbc1_enabled {s : State} (hlatch : s.bus.ramWriteEnabled = true) (hram : s.bus.ramSize ≠ .absent)
    (a : Addr) (d : Byte) : exec (.wrXramMbc1 a d) s = writeCell .xram (s.bus.ramPhys a) d s :=
  if_pos ⟨hlatch, ramBytes_pos hram⟩

theorem exec_wrXramMbc1_discarded {s : State} (h : s.bus.ramWriteEnabled = false ∨ s.bus.ramSize = .absent) (a : Addr)
    (d : Byte) : exec (.wrXramMbc1 a d) s = finish s s.bus .done := by
  refine if_neg fun ⟨hlatch, hram⟩ => ?_
  rcases h with h | h
  · rw [hlatch] at h; cases h
  · rw [h] at hram; cases hram

/-- The reduction of R102 puts every address of the window inside the array. -/
theorem ramPhys_lt_regionBytes {b : Bus} (h : b.ramSize ≠ .absent) (a : Addr) : b.ramPhys a < b.regionBytes .xram :=
  Nat.mod_lt _ (ramBytes_pos h)

/-- Settles O29: the write is of one cell of `xram`, at `ramPhys`. -/
theorem enabledRamWriteStoresOneByte : Obligations.EnabledRamWriteStoresOneByte := by
  intro s a d size hlo _ hlatch hlegal hsize
  have hram : s.bus.ramSize ≠ .absent := by
    rcases hsize with ⟨h, -⟩ | ⟨h, -⟩ | ⟨h, -⟩ <;> rw [h] <;> decide
  have hbytes : ramBytes s.bus.ramSize = size := by
    rcases hsize with ⟨h, rfl⟩ | ⟨h, rfl⟩ | ⟨h, rfl⟩ <;> rw [h] <;> rfl
  rw [exec_wrXramMbc1_enabled hlatch hram, ← hbytes, ← ramPhys_eq_mod hlo]
  exact writeCell_storesOnly d hlegal (ramPhys_lt_regionBytes hram a)

/-- Settles O30: the write is discarded where one of its two conditions fails. -/
theorem discardedRamWriteChangesNothing : Obligations.DiscardedRamWriteChangesNothing := by
  intro s a d h
  rw [exec_wrXramMbc1_discarded h, finish_bus_self]

end Sys2Proof.Proofs

/-! PROOFS. One transaction at any address of a legal bus (20_memory.md section 2; 43_bus_router.md section 6): the cell
the address reaches, what a read of it answers, what a write of it makes of the bus. -/

namespace Sys2Proof.Proofs
open Sys2Proof.Machine

/-! ### The cell of an address (20_memory.md R36, R43) -/

section Cells
variable (b : Bus) {a : Addr}

theorem cellOf_rom (h : a.toNat < 0x8000) : b.cellOf a = none := by
  simp only [Bus.cellOf, within_iff, isEcho_iff]
  rw [if_neg, if_neg, if_neg, if_neg, if_neg] <;> bv_omega

theorem cellOf_vram (hlo : 0x8000 ≤ a.toNat) (hhi : a.toNat < 0xA000) :
    b.cellOf a = some (.vram, a.toNat - 0x8000) := by
  have hoffset : offsetFrom 0x8000 a = a.toNat - 0x8000 := offsetFrom_eq_sub hlo
  simp only [Bus.cellOf, within_iff, isEcho_iff, hoffset]
  rw [if_pos]; bv_omega

theorem cellOf_xram (hlo : 0xA000 ≤ a.toNat) (hhi : a.toNat < 0xC000) :
    b.cellOf a = if b.ramSize = .absent then none else some (.xram, b.ramPhys a) := by
  simp only [Bus.cellOf, within_iff, isEcho_iff]
  rw [if_neg, if_pos] <;> bv_omega

theorem cellOf_wram (hlo : 0xC000 ≤ a.toNat) (hhi : a.toNat < 0xE000) :
    b.cellOf a = some (.wram, a.toNat - 0xC000) := by
  have hoffset : offsetFrom 0xC000 a = a.toNat - 0xC000 := offsetFrom_eq_sub hlo
  simp only [Bus.cellOf, within_iff, isEcho_iff, hoffset]
  rw [if_neg, if_neg, if_pos] <;> bv_omega

theorem cellOf_echo (hlo : 0xE000 ≤ a.toNat) (hhi : a.toNat < 0xFE00) :
    b.cellOf a = some (.wram, a.toNat - 0xE000) := by
  have hoffset : offsetFrom 0xE000 a = a.toNat - 0xE000 := offsetFrom_eq_sub hlo
  simp only [Bus.cellOf, within_iff, isEcho_iff, hoffset]
  rw [if_neg, if_neg, if_neg, if_pos] <;> bv_omega

theorem cellOf_hram (hlo : 0xFF80 ≤ a.toNat) (hhi : a.toNat < 0xFFFF) :
    b.cellOf a = some (.hram, a.toNat - 0xFF80) := by
  have hoffset : offsetFrom 0xFF80 a = a.toNat - 0xFF80 := offsetFrom_eq_sub hlo
  simp only [Bus.cellOf, within_iff, isEcho_iff, hoffset]
  rw [if_neg, if_neg, if_neg, if_neg, if_pos] <;> bv_omega

theorem cellOf_unhandled (h : (0xFE00 ≤ a.toNat ∧ a.toNat ≤ 0xFF7F) ∨ a.toNat = 0xFFFF) : b.cellOf a = none := by
  simp only [Bus.cellOf, within_iff, isEcho_iff]
  rw [if_neg, if_neg, if_neg, if_neg, if_neg] <;> bv_omega

end Cells

theorem isUnhandled_eq_false {a : Addr} (h : a.toNat < 0xFE00 ∨ (0xFF80 ≤ a.toNat ∧ a.toNat < 0xFFFF)) :
    a.isUnhandled = false := by
  rw [Bool.eq_false_iff, ne_eq, isUnhandled_iff]
  omega

theorem drawsAt_iff (b : Bus) (a : Addr) :
    b.drawsAt a = true ↔ (0xA000 ≤ a.toNat ∧ a.toNat < 0xC000) ∧ b.ramSize = .absent := by
  rw [Bus.drawsAt, Bool.and_eq_true, within_iff, decide_eq_true_iff]
  exact and_congr_left' (and_congr_right' Nat.lt_succ_iff.symm)

/-- The addresses that reach a cell, and the cell of each. -/
theorem cellOf_cases {b : Bus} {a : Addr} {c : Region × Nat} (h : b.cellOf a = some c) :
    ((0x8000 ≤ a.toNat ∧ a.toNat < 0xA000) ∧ c = (.vram, a.toNat - 0x8000)) ∨
    ((0xA000 ≤ a.toNat ∧ a.toNat < 0xC000) ∧ b.ramSize ≠ .absent ∧ c = (.xram, b.ramPhys a)) ∨
    ((0xC000 ≤ a.toNat ∧ a.toNat < 0xE000) ∧ c = (.wram, a.toNat - 0xC000)) ∨
    ((0xE000 ≤ a.toNat ∧ a.toNat < 0xFE00) ∧ c = (.wram, a.toNat - 0xE000)) ∨
    ((0xFF80 ≤ a.toNat ∧ a.toNat < 0xFFFF) ∧ c = (.hram, a.toNat - 0xFF80)) := by
  rcases addr_regions a with hr | ⟨-, hr⟩ | ⟨hlo, hhi⟩ | ⟨hlo, hhi⟩ | ⟨hlo, hhi⟩ | ⟨hlo, hhi⟩ | ⟨hlo, hhi⟩ | hr
  · rw [cellOf_rom b (by omega)] at h; cases h
  · rw [cellOf_rom b hr] at h; cases h
  · rw [cellOf_vram b hlo hhi] at h; cases h; exact .inl ⟨⟨hlo, hhi⟩, rfl⟩
  · rw [cellOf_xram b hlo hhi] at h
    split_ifs at h with hram
    cases h; exact .inr (.inl ⟨⟨hlo, hhi⟩, hram, rfl⟩)
  · rw [cellOf_wram b hlo hhi] at h; cases h; exact .inr (.inr (.inl ⟨⟨hlo, hhi⟩, rfl⟩))
  · rw [cellOf_echo b hlo hhi] at h; cases h; exact .inr (.inr (.inr (.inl ⟨⟨hlo, hhi⟩, rfl⟩)))
  · rw [cellOf_hram b hlo hhi] at h; cases h; exact .inr (.inr (.inr (.inr ⟨⟨hlo, hhi⟩, rfl⟩)))
  · rw [cellOf_unhandled b hr] at h; cases h

/-- The cell of an address lies inside its array. -/
theorem cellOf_lt_regionBytes {b : Bus} {a : Addr} {c : Region × Nat} (h : b.cellOf a = some c) :
    c.2 < b.regionBytes c.1 := by
  rcases cellOf_cases h with ⟨⟨-, hhi⟩, rfl⟩ | ⟨-, hram, rfl⟩ | ⟨⟨-, hhi⟩, rfl⟩ | ⟨⟨-, hhi⟩, rfl⟩ | ⟨⟨-, hhi⟩, rfl⟩
  · exact vramOffset_lt_regionBytes b hhi
  · exact ramPhys_lt_regionBytes hram a
  · exact wramOffset_lt_regionBytes b hhi
  · exact echoOffset_lt_regionBytes b hhi
  · exact hramOffset_lt_regionBytes b hhi

/-- An address with a cell is handled. -/
theorem isUnhandled_of_cellOf {b : Bus} {a : Addr} {c : Region × Nat} (h : b.cellOf a = some c) :
    a.isUnhandled = false := by
  rcases cellOf_cases h with ⟨ha, -⟩ | ⟨ha, -⟩ | ⟨ha, -⟩ | ⟨ha, -⟩ | ⟨ha, -⟩ <;> exact isUnhandled_eq_false (by omega)

/-- A write of an array moves no cell to another address. -/
theorem cellOf_setRegion (b : Bus) (r : Region) (m : Memory) (a : Addr) : (b.setRegion r m).cellOf a = b.cellOf a := by
  cases r <;> rfl

/-! ### A read -/

/-- The bank that the high ROM window shows. -/
def windowBank (b : Bus) : Nat :=
  match b.kind with
  | .none => b.noneRomBank
  | .mbc1 => b.effectiveRomBank

/-- The ROM offset that an address below 0x8000 shows (20_memory.md R35). -/
def romOffset (b : Bus) (a : Addr) : Nat :=
  if a.toNat < 0x4000 then a.toNat else windowBank b * 0x4000 + (a.toNat - 0x4000)

/-- What a read answers where it does not draw. -/
def readAnswer (b : Bus) (a : Addr) : Response :=
  if a.isUnhandled then .unhandled
  else
    match b.cellOf a with
    | some c => .byte ((b.region c.1).read c.2)
    | none => .byte (b.rom.read (romOffset b a))

theorem readAnswer_of_cell {b : Bus} {a : Addr} {c : Region × Nat} (h : b.cellOf a = some c) :
    readAnswer b a = .byte ((b.region c.1).read c.2) := by
  rw [readAnswer, isUnhandled_of_cellOf h, h]
  rfl

theorem readAnswer_rom {b : Bus} {a : Addr} (h : a.toNat < 0x8000) :
    readAnswer b a = .byte (b.rom.read (romOffset b a)) := by
  rw [readAnswer, isUnhandled_eq_false (by omega), cellOf_rom b h]
  rfl

theorem readAnswer_unhandled {b : Bus} {a : Addr} (h : a.isUnhandled = true) : readAnswer b a = .unhandled := if_pos h

theorem readAnswer_handled (b : Bus) {a : Addr} (h : a.isUnhandled = false) : ∃ v, readAnswer b a = .byte v := by
  rw [readAnswer, h]
  cases b.cellOf a with
  | none => exact ⟨_, rfl⟩
  | some c => exact ⟨_, rfl⟩

theorem performWord_readWord (a : Addr) (s : State) : performWord (readWord a) s = exec (routeRead s.bus.kind a) s :=
  performWord_ok (decode_readWord _ a)

theorem windowBank_lt {b : Bus} (h : 1 ≤ b.romBanks) : windowBank b < b.romBanks := by
  unfold windowBank
  cases b.kind <;> exact Nat.mod_lt _ h

theorem exec_routeRomx (a : Addr) (s : State) :
    exec (routeRomx s.bus.kind a) s = readHighWindow (windowBank s.bus) a s := by
  unfold windowBank
  cases s.bus.kind <;> rfl

theorem performWord_readWord_rom {s : State} {a : Addr} (hbanks : 1 ≤ s.bus.romBanks) (h : a.toNat < 0x8000) :
    performWord (readWord a) s = finish s s.bus (readAnswer s.bus a) := by
  rw [performWord_readWord, readAnswer_rom h, romOffset]
  by_cases hlow : a.toNat < 0x4000
  · have hlt : a.toNat < s.bus.romBytes := by unfold Bus.romBytes; omega
    rw [routeRead_rom0 _ hlow, exec_rdRom0, readRom_of_lt hlt, if_pos hlow]
  · rw [routeRead_romx _ (by omega) h, exec_routeRomx, readHighWindow_of_lt (by omega) h (windowBank_lt hbanks),
      if_neg hlow]

/-- Only an MBC1 has RAM. -/
theorem kind_eq_mbc1_of_ram {b : Bus} (hb : b.Inv) (h : b.ramSize ≠ .absent) : b.kind = .mbc1 := by
  obtain ⟨-, -, ⟨hnone, -⟩, -⟩ := hb
  cases hk : b.kind with
  | none => exact absurd (hnone hk) h
  | mbc1 => rfl

theorem performWord_readWord_cell {s : State} {a : Addr} {c : Region × Nat} (hb : s.bus.Inv)
    (h : s.bus.cellOf a = some c) :
    performWord (readWord a) s = finish s s.bus (.byte ((s.bus.region c.1).read c.2)) := by
  rw [← readCell_of_lt (cellOf_lt_regionBytes h), performWord_readWord]
  rcases cellOf_cases h with
    ⟨⟨hlo, hhi⟩, rfl⟩ | ⟨⟨hlo, hhi⟩, hram, rfl⟩ | ⟨⟨hlo, hhi⟩, rfl⟩ | ⟨⟨hlo, hhi⟩, rfl⟩ | ⟨⟨hlo, hhi⟩, rfl⟩
  · rw [routeRead_vram _ hlo hhi, exec_rdVram hlo]
  · rw [routeRead_xram _ hlo hhi, kind_eq_mbc1_of_ram hb hram]
    exact if_pos (ramBytes_pos hram)
  · rw [routeRead_wram _ hlo hhi, exec_rdWram hlo]
  · rw [routeRead_echo _ hlo hhi, exec_rdEcho hlo]
  · rw [routeRead_hram _ hlo hhi, exec_rdHram hlo]

theorem performWord_readWord_unhandled {s : State} {a : Addr} (h : a.isUnhandled = true) :
    performWord (readWord a) s = finish s s.bus .unhandled := by
  rw [performWord_readWord, routeRead_unhandled _ ((isUnhandled_iff a).1 h)]
  rfl

theorem performWord_readWord_draws {s : State} {a : Addr} (h : s.bus.drawsAt a = true) :
    performWord (readWord a) s = drawOpenBus s := by
  obtain ⟨⟨hlo, hhi⟩, hram⟩ := (drawsAt_iff _ a).1 h
  rw [performWord_readWord, routeRead_xram _ hlo hhi]
  cases s.bus.kind with
  | none => exact exec_rdXramNone a s
  | mbc1 => exact exec_rdXramMbc1_of_noRam hram a

/-- Where an address does not draw it reaches ROM, a cell or the unhandled ranges. -/
theorem addr_reaches {b : Bus} {a : Addr} (h : b.drawsAt a = false) :
    a.toNat < 0x8000 ∨ (∃ c, b.cellOf a = some c) ∨ a.isUnhandled = true := by
  rcases addr_regions a with hr | ⟨-, hr⟩ | ⟨hlo, hhi⟩ | ⟨hlo, hhi⟩ | ⟨hlo, hhi⟩ | ⟨hlo, hhi⟩ | ⟨hlo, hhi⟩ | hr
  · exact .inl (by omega)
  · exact .inl hr
  · exact .inr (.inl ⟨_, cellOf_vram b hlo hhi⟩)
  · have hram : b.ramSize ≠ .absent := fun e => by rw [(drawsAt_iff b a).2 ⟨⟨hlo, hhi⟩, e⟩] at h; cases h
    exact .inr (.inl ⟨_, (cellOf_xram b hlo hhi).trans (if_neg hram)⟩)
  · exact .inr (.inl ⟨_, cellOf_wram b hlo hhi⟩)
  · exact .inr (.inl ⟨_, cellOf_echo b hlo hhi⟩)
  · exact .inr (.inl ⟨_, cellOf_hram b hlo hhi⟩)
  · exact .inr (.inr ((isUnhandled_iff a).2 hr))

/-- A read of a legal bus that does not draw changes nothing of the bus, and its answer is the bus's alone. -/
theorem performWord_readWord_answer {s : State} {a : Addr} (hb : s.bus.Inv) (h : s.bus.drawsAt a = false) :
    performWord (readWord a) s = finish s s.bus (readAnswer s.bus a) := by
  rcases addr_reaches h with hrom | ⟨c, hc⟩ | hu
  · obtain ⟨-, ⟨hbanks, -⟩, -⟩ := hb
    exact performWord_readWord_rom hbanks hrom
  · rw [performWord_readWord_cell hb hc, readAnswer_of_cell hc]
  · rw [performWord_readWord_unhandled hu, readAnswer_unhandled hu]

end Sys2Proof.Proofs

/-! PROOFS. A write at any address of a legal bus (20_memory.md section 2): what it makes of the bus, and that it does
so once however often it is repeated. -/

namespace Sys2Proof.Proofs
open Sys2Proof.Machine

/-! ### What a write makes of the bus -/

/-- The bus of an MBC1 after a control write (41_mbc_write.md R87 to R91). -/
def afterMbc1Control (b : Bus) (a : Addr) (d : Byte) : Bus :=
  if a.toNat < 0x2000 then { b with ramWriteEnabled := latchOf d }
  else if a.toNat < 0x4000 then { b with low5 := low5Of d }
  else if a.toNat < 0x6000 then b.setBankHi (valueBank2 d)
  else b.setMode (modeOf d)

/-- The bus after a control write (41_mbc_write.md R87, R93). -/
def afterControl (b : Bus) (a : Addr) (d : Byte) : Bus :=
  match b.kind with
  | .none => b
  | .mbc1 => afterMbc1Control b a d

/-- The bus after a write: a control write below 0x8000, elsewhere the addressed cell, if there is one and the latch
does not guard it. -/
def afterWrite (b : Bus) (a : Addr) (d : Byte) : Bus :=
  if a.toNat < 0x8000 then afterControl b a d
  else
    match b.cellOf a with
    | some c =>
      if c.1 = .xram ∧ b.ramWriteEnabled = false then b else b.setRegion c.1 ((b.region c.1).write c.2 d)
    | none => b

/-- What a write answers. -/
def writeAnswer (a : Addr) : Response := if a.isUnhandled then .unhandled else .done

theorem writeAnswer_handled {a : Addr} (h : a.isUnhandled = false) : writeAnswer a = .done := by
  rw [writeAnswer, h]
  rfl

theorem writeAnswer_unhandled {a : Addr} (h : a.isUnhandled = true) : writeAnswer a = .unhandled := if_pos h

theorem afterWrite_control {b : Bus} {a : Addr} (d : Byte) (h : a.toNat < 0x8000) :
    afterWrite b a d = afterControl b a d := if_pos h

/-- Only storage has cells, from 0x8000 up. -/
theorem le_of_cellOf {b : Bus} {a : Addr} {c : Region × Nat} (h : b.cellOf a = some c) : 0x8000 ≤ a.toNat := by
  by_contra hlt
  rw [cellOf_rom b (by omega)] at h
  cases h

theorem afterWrite_cell {b : Bus} {a : Addr} {c : Region × Nat} (d : Byte) (h : b.cellOf a = some c)
    (hlatch : c.1 = .xram → b.ramWriteEnabled = true) :
    afterWrite b a d = b.setRegion c.1 ((b.region c.1).write c.2 d) := by
  have hle := le_of_cellOf h
  have hnot : ¬ (c.1 = .xram ∧ b.ramWriteEnabled = false) := fun ⟨hc, hoff⟩ => by rw [hlatch hc] at hoff; cases hoff
  rw [afterWrite, if_neg (by omega), h]
  exact if_neg hnot

theorem afterWrite_discarded {b : Bus} {a : Addr} {c : Region × Nat} (d : Byte) (h : b.cellOf a = some c)
    (hxram : c.1 = .xram) (hlatch : b.ramWriteEnabled = false) : afterWrite b a d = b := by
  have hle := le_of_cellOf h
  rw [afterWrite, if_neg (by omega), h]
  exact if_pos ⟨hxram, hlatch⟩

theorem afterWrite_noCell {b : Bus} {a : Addr} (d : Byte) (hle : 0x8000 ≤ a.toNat) (h : b.cellOf a = none) :
    afterWrite b a d = b := by
  rw [afterWrite, if_neg (by omega), h]

/-- A control write moves the registers only. -/
theorem afterControl_busMove (b : Bus) (a : Addr) (d : Byte) : BusMove b (afterControl b a d) := by
  unfold afterControl
  cases b.kind with
  | none => exact .same
  | mbc1 =>
    dsimp only [afterMbc1Control]
    split_ifs
    · exact .latch d
    · exact .low5 d
    · exact .bankHi _
    · exact .mode _

theorem afterControl_region (b : Bus) (a : Addr) (d : Byte) (r : Region) :
    (afterControl b a d).region r = b.region r := by
  unfold afterControl
  cases b.kind with
  | none => rfl
  | mbc1 =>
    dsimp only [afterMbc1Control]
    split_ifs
    · cases r <;> rfl
    · cases r <;> rfl
    · exact Bus.setBankHi_region b _ r
    · exact Bus.setMode_region b _ r

/-- Every write is one of the moves of a bus. -/
theorem afterWrite_busMove (b : Bus) (a : Addr) (d : Byte) : BusMove b (afterWrite b a d) := by
  unfold afterWrite
  split
  · exact afterControl_busMove b a d
  · cases hc : b.cellOf a with
    | none => exact .same
    | some c =>
      dsimp only
      split_ifs
      · exact .same
      · exact .cell c.1 c.2 d (cellOf_lt_regionBytes hc)

/-! ### The transaction -/

theorem performWord_writeWord (a : Addr) (d : Byte) (s : State) :
    performWord (writeWord a d) s = exec (routeWrite s.bus.kind a d) s :=
  performWord_ok (decode_writeWord _ a d)

theorem performWord_writeWord_control {a : Addr} (h : a.toNat < 0x8000) (d : Byte) (s : State) :
    performWord (writeWord a d) s = finish s (afterControl s.bus a d) .done := by
  rw [performWord_writeWord, afterControl]
  cases s.bus.kind with
  | none => rw [routeWrite_control .none d h]; rfl
  | mbc1 =>
    dsimp only [afterMbc1Control]
    rcases control_regions h with hlow | ⟨hlo, hhi⟩ | ⟨hlo, hhi⟩ | ⟨hlo, hhi⟩
    · rw [routeWrite_ramen d hlow, if_pos hlow, exec_wrRamen]
    · rw [routeWrite_romlo d hlo hhi, if_neg (by omega), if_pos hhi, exec_wrRomlo]
    · rw [routeWrite_bankhi d hlo hhi, if_neg (by omega), if_neg (by omega), if_pos hhi, exec_wrBankhi]
    · rw [routeWrite_mode d hlo hhi, if_neg (by omega), if_neg (by omega), if_neg (by omega), exec_wrMode]

theorem performWord_writeWord_cell {s : State} {a : Addr} {c : Region × Nat} (hb : s.bus.Inv)
    (h : s.bus.cellOf a = some c) (hlatch : c.1 = .xram → s.bus.ramWriteEnabled = true) (d : Byte) :
    performWord (writeWord a d) s = writeCell c.1 c.2 d s := by
  rw [performWord_writeWord]
  rcases cellOf_cases h with
    ⟨⟨hlo, hhi⟩, rfl⟩ | ⟨⟨hlo, hhi⟩, hram, rfl⟩ | ⟨⟨hlo, hhi⟩, rfl⟩ | ⟨⟨hlo, hhi⟩, rfl⟩ | ⟨⟨hlo, hhi⟩, rfl⟩
  · rw [routeWrite_vram _ d hlo hhi, exec_wrVram hlo]
  · rw [routeWrite_xram _ d hlo hhi, kind_eq_mbc1_of_ram hb hram]
    exact exec_wrXramMbc1_enabled (hlatch rfl) hram a d
  · rw [routeWrite_wram _ d hlo hhi, exec_wrWram hlo]
  · rw [routeWrite_echo _ d hlo hhi, exec_wrEcho hlo]
  · rw [routeWrite_hram _ d hlo hhi, exec_wrHram hlo]

/-- A RAM-window write with the latch off, or with no RAM, on either kind. -/
theorem performWord_writeWord_discarded {s : State} {a : Addr} (hlo : 0xA000 ≤ a.toNat) (hhi : a.toNat < 0xC000)
    (h : s.bus.ramWriteEnabled = false ∨ s.bus.ramSize = .absent) (d : Byte) :
    performWord (writeWord a d) s = finish s s.bus .done := by
  rw [performWord_writeWord, routeWrite_xram _ d hlo hhi]
  cases s.bus.kind with
  | none => exact exec_wrXramNone a d s
  | mbc1 => exact exec_wrXramMbc1_discarded h a d

theorem performWord_writeWord_unhandled {a : Addr} (h : a.isUnhandled = true) (d : Byte) (s : State) :
    performWord (writeWord a d) s = finish s s.bus .unhandled := by
  rw [performWord_writeWord, routeWrite_unhandled _ d ((isUnhandled_iff a).1 h)]
  rfl

/-- Only the RAM window reaches external RAM. -/
theorem ramWindow_of_cellOf_xram {b : Bus} {a : Addr} {c : Region × Nat} (h : b.cellOf a = some c) (hc : c.1 = .xram) :
    0xA000 ≤ a.toNat ∧ a.toNat < 0xC000 := by
  rcases cellOf_cases h with ⟨-, rfl⟩ | ⟨ha, -⟩ | ⟨-, rfl⟩ | ⟨-, rfl⟩ | ⟨-, rfl⟩
  case inr.inl => exact ha
  all_goals cases hc

/-- A write of a legal bus, at any address. -/
theorem performWord_writeWord_answer {s : State} (hb : s.bus.Inv) (a : Addr) (d : Byte) :
    performWord (writeWord a d) s = finish s (afterWrite s.bus a d) (writeAnswer a) := by
  cases hdraws : s.bus.drawsAt a with
  | true =>
    obtain ⟨⟨hlo, hhi⟩, hram⟩ := (drawsAt_iff _ a).1 hdraws
    have hcell : s.bus.cellOf a = none := (cellOf_xram _ hlo hhi).trans (if_pos hram)
    rw [performWord_writeWord_discarded hlo hhi (.inr hram), afterWrite_noCell d (by omega) hcell,
      writeAnswer_handled (isUnhandled_eq_false (by omega))]
  | false =>
    rcases addr_reaches hdraws with hrom | ⟨c, hc⟩ | hu
    · rw [performWord_writeWord_control hrom, afterWrite_control d hrom,
        writeAnswer_handled (isUnhandled_eq_false (by omega))]
    · rw [writeAnswer_handled (isUnhandled_of_cellOf hc)]
      by_cases hlatch : c.1 = .xram → s.bus.ramWriteEnabled = true
      · rw [performWord_writeWord_cell hb hc hlatch, writeCell_of_lt (cellOf_lt_regionBytes hc),
          afterWrite_cell d hc hlatch]
      · obtain ⟨hxram, hoff⟩ := Classical.not_imp.1 hlatch
        replace hoff : s.bus.ramWriteEnabled = false := Bool.eq_false_of_not_eq_true hoff
        obtain ⟨hlo, hhi⟩ := ramWindow_of_cellOf_xram hc hxram
        rw [performWord_writeWord_discarded hlo hhi (.inl hoff), afterWrite_discarded d hc hxram hoff]
    · have hu' := (isUnhandled_iff a).1 hu
      rw [performWord_writeWord_unhandled hu, afterWrite_noCell d (by omega) (cellOf_unhandled _ hu'),
        writeAnswer_unhandled hu]

/-! ### A write repeated -/

theorem setBankHi_setBankHi (b : Bus) (v : BitVec 2) : (b.setBankHi v).setBankHi v = b.setBankHi v := by
  cases h : b.bankingMode with
  | romBanking => rw [setBankHi_romBanking h, setBankHi_romBanking (b := { b with high2 := v }) h]
  | ramBanking => rw [setBankHi_ramBanking h, setBankHi_ramBanking (b := { b with ramBankSelector := v }) h]

theorem setMode_setMode (b : Bus) (m : BankingMode) : (b.setMode m).setMode m = b.setMode m := by
  cases m <;> rfl

theorem afterControl_afterControl (b : Bus) (a : Addr) (d : Byte) :
    afterControl (afterControl b a d) a d = afterControl b a d := by
  obtain ⟨hkind, -⟩ := busMove_sameConfig (afterControl_busMove b a d)
  rw [afterControl, hkind]
  unfold afterControl
  cases b.kind with
  | none => rfl
  | mbc1 =>
    dsimp only [afterMbc1Control]
    split_ifs
    · rfl
    · rfl
    · exact setBankHi_setBankHi b _
    · exact setMode_setMode b _

theorem setRegion_setRegion (b : Bus) (r : Region) (m n : Memory) :
    (b.setRegion r m).setRegion r n = b.setRegion r n := by
  cases r <;> rfl

/-- A write repeated leaves the bus as one write does (20_memory.md R42). -/
theorem afterWrite_afterWrite {b : Bus} (hb : ∀ r, b.regionLegal r) (a : Addr) (d : Byte) :
    afterWrite (afterWrite b a d) a d = afterWrite b a d := by
  by_cases hrom : a.toNat < 0x8000
  · rw [afterWrite_control d hrom, afterWrite_control d hrom, afterControl_afterControl]
  · replace hrom : 0x8000 ≤ a.toNat := by omega
    cases hc : b.cellOf a with
    | none => rw [afterWrite_noCell d hrom hc, afterWrite_noCell d hrom hc]
    | some c =>
      by_cases hlatch : c.1 = .xram → b.ramWriteEnabled = true
      · have hc' : (b.setRegion c.1 ((b.region c.1).write c.2 d)).cellOf a = some c := by rw [cellOf_setRegion, hc]
        have hlatch' : c.1 = .xram → (b.setRegion c.1 ((b.region c.1).write c.2 d)).ramWriteEnabled = true := by
          rwa [Bus.setRegion_ramWriteEnabled]
        obtain ⟨hwf, -⟩ := hb c.1
        rw [afterWrite_cell d hc hlatch, afterWrite_cell d hc' hlatch', Bus.region_setRegion_self, setRegion_setRegion,
          write_write_self hwf]
      · obtain ⟨hxram, hoff⟩ := Classical.not_imp.1 hlatch
        replace hoff : b.ramWriteEnabled = false := Bool.eq_false_of_not_eq_true hoff
        rw [afterWrite_discarded d hc hxram hoff, afterWrite_discarded d hc hxram hoff]

end Sys2Proof.Proofs

/-! PROOFS. The whole-machine rules of transactions: a read and a write at any address of a legal bus (20_memory.md
R40 to R42, section 4; 43_bus_router.md R121 to R124). -/

namespace Sys2Proof.Proofs
open Sys2Proof.Machine

/-- A write on a legal bus leaves it legal. -/
theorem afterWrite_inv {s : State} (hb : s.bus.Inv) (a : Addr) (d : Byte) : (afterWrite s.bus a d).Inv := by
  obtain ⟨hanswered, hnone⟩ := performWord_busMove (performWord_writeWord_answer hb a d)
  exact busMove_inv hanswered.bus hnone hb

/-- Settles O44: a read that does not draw is answered by the bus alone, which it leaves as it is; and the bus after a
write is the same after another. -/
theorem repeatedTransactionsAreIdempotent : Obligations.RepeatedTransactionsAreIdempotent := by
  intro s hb
  constructor
  · intro a hdraws
    have hread (t : State) (ht : t.bus = s.bus) : performWord (readWord a) t = finish t s.bus (readAnswer s.bus a) := by
      rw [← ht] at hb hdraws ⊢
      exact performWord_readWord_answer hb hdraws
    refine ⟨readAnswer s.bus a, hread s rfl, _, hread _ rfl, ?_, rfl⟩
    rw [State.answer_shown, State.withBus_shown, List.append_assoc]
    rfl
  · intro a d
    refine ⟨_, _, performWord_writeWord_answer hb a d, performWord_writeWord_answer (afterWrite_inv hb a d) a d, ?_⟩
    exact afterWrite_afterWrite (regionLegal_of_inv hb) a d

/-- From 0x8000 up a write changes no register, and no byte but the addressed cell's. -/
theorem afterWrite_storage (b : Bus) {a : Addr} (hle : 0x8000 ≤ a.toNat) (d : Byte) :
    b.sameRegisters (afterWrite b a d) ∧
    ∀ r p, b.cellOf a ≠ some (r, p) → ((afterWrite b a d).region r).read p = (b.region r).read p := by
  rw [afterWrite, if_neg (by omega)]
  cases hc : b.cellOf a with
  | none => exact ⟨sameRegisters_refl b, fun _ _ _ => rfl⟩
  | some c =>
    dsimp only
    split_ifs
    · exact ⟨sameRegisters_refl b, fun _ _ _ => rfl⟩
    · exact ⟨sameRegisters_setRegion b _ _,
        fun r p hne => sameBut_setRegion_write b c.1 c.2 d r p fun e => hne (congrArg some e.symm)⟩

/-- Settles O42: below 0x8000 the write moves registers, from there up at most the addressed cell. -/
theorem writesHaveNoOtherSideEffect : Obligations.WritesHaveNoOtherSideEffect := by
  intro s a d hb
  refine ⟨_, performWord_writeWord_answer hb a d, busMove_sameConfig (afterWrite_busMove s.bus a d), ?_, ?_⟩
  · intro hrom r
    rw [State.answer_bus, State.withBus_bus, afterWrite_control d hrom]
    exact afterControl_region s.bus a d r
  · intro hle
    exact afterWrite_storage s.bus hle d

/-- The bytes of a bus after a write of one cell. -/
theorem read_setRegion_write {b : Bus} {c : Region × Nat} (hlegal : b.regionLegal c.1) (d : Byte) (q : Region × Nat) :
    ((b.setRegion c.1 ((b.region c.1).write c.2 d)).region q.1).read q.2 =
      if q = c then d else (b.region q.1).read q.2 := by
  split_ifs with hq
  · obtain ⟨hwf, -⟩ := hlegal
    rw [hq, Bus.region_setRegion_self, Memory.read_write_self _ _ _ hwf]
  · exact sameBut_setRegion_write b c.1 c.2 d q.1 q.2 hq

/-- Settles O43: the write stores the one cell, and a read at any address of storage answers with its cell. -/
theorem readReturnsTheMostRecentWrite : Obligations.ReadReturnsTheMostRecentWrite := by
  intro s a d c hb hc hlatch
  have hwrite := performWord_writeWord_answer hb a d
  have hinv := afterWrite_inv hb a d
  rw [writeAnswer_handled (isUnhandled_of_cellOf hc)] at hwrite
  rw [afterWrite_cell d hc hlatch] at hwrite hinv
  refine ⟨_, hwrite, fun e q hq => ?_⟩
  refine ⟨_, performWord_readWord_cell (c := q) hinv ((cellOf_setRegion _ _ _ _).trans hq), ?_⟩
  simp only [State.answer_shown, State.answer_bus, State.withBus_shown, State.withBus_bus,
    read_setRegion_write (regionLegal_of_inv hb c.1), List.append_assoc, List.cons_append, List.nil_append]

/-- Settles O41: the router names the two operations, and neither touches the bus. -/
theorem unhandledAccessesSignalAndChangeNothing : Obligations.UnhandledAccessesSignalAndChangeNothing := by
  intro s a d h
  have hu := (isUnhandled_iff a).2 h
  exact ⟨rfl, rfl, performWord_readWord_unhandled hu, performWord_writeWord_unhandled hu d s⟩

/-- A write of one cell leaves every byte of another. -/
theorem writeCell_sameBut {r : Region} {p : Nat} {d : Byte} {s t : State} (h : writeCell r p d s = .next t) :
    s.bus.sameBut t.bus (r, p) := by
  obtain ⟨-, e⟩ | ⟨-, e⟩ := writeCell_cases r p d s <;> rw [e] at h
  · rw [finish_bus h]; exact sameBut_setRegion_write _ r p d
  · cases h

/-- Settles O40: a cell below 0x1E00 is read 0xE000 above its offset; of the writes from 0xE000 up only those of the
echo store work RAM, and they end at offset 0x1DFF. -/
theorem echoCoversTheFirst0x1E00Cells : Obligations.EchoCoversTheFirst0x1E00Cells := by
  constructor
  · intro s p hp
    have ha : (BitVec.ofNat 16 (0xE000 + p)).toNat = 0xE000 + p := by rw [BitVec.toNat_ofNat]; omega
    refine ⟨BitVec.ofNat 16 (0xE000 + p), by omega, by omega, ?_⟩
    rw [exec_rdEcho (by omega), ha, Nat.add_sub_cancel_left,
      readCell_eq_next (show p < s.bus.regionBytes .wram by simp only [Bus.regionBytes]; omega)]
    rfl
  · intro s t a d p hlo hp h
    rw [performWord_writeWord] at h
    rcases addr_regions a with hr | hr | hr | hr | hr | ⟨-, hhi⟩ | ⟨hlo', hhi⟩ | hr
    · omega
    · omega
    · omega
    · omega
    · omega
    · rw [routeWrite_echo _ d hlo hhi, exec_wrEcho hlo] at h
      exact writeCell_sameBut h .wram p fun e => by have := congrArg Prod.snd e; simp only at this; omega
    · rw [routeWrite_hram _ d hlo' hhi, exec_wrHram hlo'] at h
      exact writeCell_sameBut h .wram p nofun
    · rw [routeWrite_unhandled _ d hr] at h
      rw [finish_bus h]

end Sys2Proof.Proofs

/-! PROOFS. Operations of a live session on a legal bus: each that the phase admits completes (70_reset_and_hazards.md
R168), none is a fault (log 7), and a transaction answers as its address has it (43_bus_router.md R121 to R123). -/

namespace Sys2Proof.Proofs
open Sys2Proof.Machine

/-! ### Transactions -/

/-- The three ways in which a read of a legal bus answers. -/
theorem performWord_readWord_cases {s : State} (hb : s.bus.Inv) (a : Addr) :
    (a.isUnhandled = true ∧ performWord (readWord a) s = finish s s.bus .unhandled) ∨
    (a.isUnhandled = false ∧ ∃ v, performWord (readWord a) s = finish s s.bus (.byte v)) ∨
    (a.isUnhandled = false ∧ performWord (readWord a) s = drawOpenBus s) := by
  cases hdraws : s.bus.drawsAt a with
  | true =>
    obtain ⟨⟨-, hhi⟩, -⟩ := (drawsAt_iff _ a).1 hdraws
    exact .inr (.inr ⟨isUnhandled_eq_false (by omega), performWord_readWord_draws hdraws⟩)
  | false =>
    cases hu : a.isUnhandled with
    | true => exact .inl ⟨rfl, performWord_readWord_unhandled hu⟩
    | false =>
      obtain ⟨v, hv⟩ := readAnswer_handled s.bus hu
      exact .inr (.inl ⟨rfl, v, hv ▸ performWord_readWord_answer hb hdraws⟩)

/-- Settles O23: however a read answers, the bus is as it was. -/
theorem readsLeaveTheBusAsItWas : Obligations.ReadsLeaveTheBusAsItWas := by
  intro s rest a hlive hb hpending
  rw [step_transaction hlive hpending]
  rcases performWord_readWord_cases (s := { s with pending := rest }) hb a with ⟨-, h⟩ | ⟨-, v, h⟩ | ⟨-, h⟩ <;>
    exact ⟨_, h, rfl⟩

/-- The response `r` is one that a read or a write of this address and value may have. -/
def Answers (value? : Option Byte) (a : Addr) (r : Response) : Prop :=
  (value? = none → r = .unhandled ∨ ∃ v, r = .byte v) ∧ (value? ≠ none → r = .unhandled ∨ r = .done) ∧
  (r = .unhandled ↔ a.isUnhandled = true)

theorem answers_unhandled {value? : Option Byte} {a : Addr} (h : a.isUnhandled = true) :
    Answers value? a .unhandled :=
  ⟨fun _ => .inl rfl, fun _ => .inl rfl, fun _ => h, fun _ => rfl⟩

theorem answers_byte {a : Addr} (v : Byte) (h : a.isUnhandled = false) : Answers none a (.byte v) :=
  ⟨fun _ => .inr ⟨v, rfl⟩, fun hne => absurd rfl hne, nofun, fun hu => by rw [h] at hu; cases hu⟩

theorem answers_done {a : Addr} (d : Byte) (h : a.isUnhandled = false) : Answers (some d) a .done :=
  ⟨nofun, fun _ => .inr rfl, nofun, fun hu => by rw [h] at hu; cases hu⟩

theorem answers_writeAnswer (a : Addr) (d : Byte) : Answers (some d) a (writeAnswer a) := by
  cases hu : a.isUnhandled with
  | true => rw [writeAnswer_unhandled hu]; exact answers_unhandled hu
  | false => rw [writeAnswer_handled hu]; exact answers_done d hu

/-- A transaction that decodes completes on a legal bus, at every address and with every value. -/
theorem performWord_answers {s : State} {w : Nat} {i : Instr} (hb : s.bus.Inv) (h : decode s.bus.kind w = .ok i) :
    ∃ t r, performWord w s = .next t ∧ t.phase = s.phase ∧ t.pending = s.pending ∧ t.shown = s.shown ++ [r] ∧
      Answers i.value? i.addr r := by
  rcases decode_cases h with ⟨a, rfl, rfl⟩ | ⟨a, d, rfl, rfl⟩
  · rw [routeRead_value?, routeRead_addr]
    rcases performWord_readWord_cases hb a with ⟨hu, e⟩ | ⟨hu, v, e⟩ | ⟨hu, e⟩
    · exact ⟨_, _, e, rfl, rfl, rfl, answers_unhandled hu⟩
    · exact ⟨_, _, e, rfl, rfl, rfl, answers_byte v hu⟩
    · exact ⟨_, _, e, rfl, rfl, rfl, answers_byte _ hu⟩
  · rw [routeWrite_value?, routeWrite_addr]
    exact ⟨_, _, performWord_writeWord_answer hb a d, rfl, rfl, rfl, answers_writeAnswer a d⟩

/-- Settles O7: the step is the transaction, whose response is the one of its address. -/
theorem everyTransactionAnswers : Obligations.EveryTransactionAnswers := by
  intro s rest w i hlive hb hpending hdecode
  obtain ⟨t, r, ht, hphase, hrest, hshown, hread, hwrite, hsignal⟩ :=
    performWord_answers (s := { s with pending := rest }) hb hdecode
  rw [isUnhandled_iff] at hsignal
  exact ⟨t, r, (step_transaction hlive hpending).trans ht, hphase.trans hlive, hrest, hshown, hread, hwrite, hsignal⟩

/-! ### Every operation -/

theorem performSave_completes (s : State) : ∃ t, performSave s = .next t := by
  unfold performSave
  cases saveRam s.bus with
  | ok data => exact ⟨_, rfl⟩
  | error e => exact ⟨_, rfl⟩

theorem performRestore_completes (data : List Byte) (s : State) : ∃ t, performRestore data s = .next t := by
  unfold performRestore
  cases restoreRam s.bus data with
  | ok b => exact ⟨_, rfl⟩
  | error e => exact ⟨_, rfl⟩

/-- Everything that a live session admits completes. -/
theorem performLive_completes {s : State} {op : HostOp} (hb : s.bus.Inv) (hconstruct : ∀ l, op ≠ .construct l)
    (hdecodes : ∀ w, op = .transaction w → ∃ i, decode s.bus.kind w = .ok i) : ∃ t, performLive op s = .next t := by
  cases op with
  | construct l => exact absurd rfl (hconstruct l)
  | transaction w =>
    obtain ⟨i, hi⟩ := hdecodes w rfl
    obtain ⟨t, -, ht, -⟩ := performWord_answers hb hi
    exact ⟨t, ht⟩
  | save => exact performSave_completes s
  | restore data => exact performRestore_completes data s
  | query q | debugReport | destroy => exact ⟨_, rfl⟩

/-- Settles O9: the operation completes, and a step that completes is one operation with one response. -/
theorem everyOperationCompletesInOneStep : Obligations.EveryOperationCompletesInOneStep := by
  intro s op rest hlive hb hpending hconstruct hdecodes
  obtain ⟨t, ht⟩ := performLive_completes (s := { s with pending := rest }) hb hconstruct hdecodes
  have hstep : step s = .next t := (step_live hlive hpending).trans ht
  obtain ⟨op', r, hop, hshown⟩ := oneStepIsOneOperation s t hstep
  rw [hpending] at hop
  exact ⟨t, r, hstep, (List.cons.inj hop).2.symm, hshown⟩

theorem performWord_ne_fault {s : State} (hb : s.bus.Inv) (w : Nat) (f : Fault) : performWord w s ≠ .fault f := by
  cases hdecode : decode s.bus.kind w with
  | error why => rw [performWord_error hdecode]; exact nofun
  | ok i =>
    obtain ⟨t, -, ht, -⟩ := performWord_answers hb hdecode
    rw [ht]; exact nofun

theorem performLive_ne_fault {s : State} (hb : s.bus.Inv) (op : HostOp) (f : Fault) : performLive op s ≠ .fault f := by
  cases op with
  | construct l => exact nofun
  | transaction w => exact performWord_ne_fault hb w f
  | save =>
    obtain ⟨t, ht⟩ := performSave_completes s
    rw [performLive, ht]; exact nofun
  | restore data =>
    obtain ⟨t, ht⟩ := performRestore_completes data s
    rw [performLive, ht]; exact nofun
  | query q | debugReport | destroy => exact nofun

theorem performConstruct_ne_fault (l : Launch) (s : State) (f : Fault) : performConstruct l s ≠ .fault f := by
  unfold performConstruct
  cases construct l <;> exact nofun

theorem perform_ne_fault {s : State} (hinv : s.Inv) (op : HostOp) (f : Fault) : perform op s ≠ .fault f := by
  unfold perform
  cases hphase : s.phase with
  | unbuilt =>
    cases op with
    | construct l => exact performConstruct_ne_fault l s f
    | transaction _ | query _ | save | restore _ | debugReport | destroy => exact nofun
  | live => exact performLive_ne_fault (hinv hphase) op f
  | destroyed => exact nofun

/-- Settles O8: only a transaction could run out of an array's bounds, and on a legal bus it answers. -/
theorem noStepFaults : Obligations.NoStepFaults := by
  intro s f hinv
  cases hpending : s.pending with
  | nil => rw [step_nil hpending]; exact nofun
  | cons op rest =>
    rw [step_cons hpending]
    exact perform_ne_fault (s := { s with pending := rest }) hinv op f

end Sys2Proof.Proofs

/-! PROOFS. Short runs: a bank switch and the read after it (20_memory.md section 4), the latch and the RAM-window write
after it (95_test_vectors.md S5), and the pseudo-instructions (30_encoding.md R62). -/

namespace Sys2Proof.Proofs
open Sys2Proof.Machine

/-- A transaction of the word `w` makes the bus `c` of `b` and answers `r`, whatever else the machine holds. -/
def Does (w : Nat) (b c : Bus) (r : Response) : Prop := ∀ s : State, s.bus = b → performWord w s = finish s c r

theorem step_of_does {s : State} {rest : List HostOp} {w : Nat} {c : Bus} {r : Response} (hlive : s.phase = .live)
    (hpending : s.pending = .transaction w :: rest) (h : Does w s.bus c r) :
    step s = .next { s with bus := c, pending := rest, shown := s.shown ++ [r] } :=
  (step_transaction hlive hpending).trans (h { s with pending := rest } rfl)

/-- A run takes its steps one by one. -/
theorem core_run_succ (M : Host.Core) {s t : M.State} (k : Nat) (h : M.step s = .next t) :
    M.run (k + 1) s = M.run k t := by
  rw [Host.Core.run, h]

theorem run_succ {s t : State} (k : Nat) (h : step s = .next t) :
    Host.Core.run Sys2Proof.core (k + 1) s = Host.Core.run Sys2Proof.core k t :=
  core_run_succ Sys2Proof.core k h

theorem run_two_transactions {s : State} {rest : List HostOp} {w v : Nat} {b c : Bus} {r q : Response}
    (hlive : s.phase = .live) (hpending : s.pending = .transaction w :: .transaction v :: rest)
    (hw : Does w s.bus b r) (hv : Does v b c q) :
    Host.Core.run Sys2Proof.core 2 s = .next { s with bus := c, pending := rest, shown := s.shown ++ [r, q] } := by
  have hsecond := step_of_does
    (s := { s with bus := b, pending := .transaction v :: rest, shown := s.shown ++ [r] }) hlive rfl hv
  rw [run_succ 1 (step_of_does hlive hpending hw), run_succ 0 hsecond, List.append_assoc]
  rfl

theorem run_three_transactions {s : State} {rest : List HostOp} {w v u : Nat} {b c d : Bus} {r q p : Response}
    (hlive : s.phase = .live) (hpending : s.pending = .transaction w :: .transaction v :: .transaction u :: rest)
    (hw : Does w s.bus b r) (hv : Does v b c q) (hu : Does u c d p) :
    Host.Core.run Sys2Proof.core 3 s = .next { s with bus := d, pending := rest, shown := s.shown ++ [r, q, p] } := by
  have hlast := run_two_transactions
    (s := { s with bus := b, pending := .transaction v :: .transaction u :: rest, shown := s.shown ++ [r] })
    hlive rfl hv hu
  rw [run_succ 2 (step_of_does hlive hpending hw), hlast, List.append_assoc]
  rfl

/-! ### The control writes as transactions of an MBC1 -/

section Control
variable {b : Bus} (hkind : b.kind = .mbc1) {a : Addr} (d : Byte)
include hkind

theorem does_ramen (h : a.toNat < 0x2000) :
    Does (writeWord a d) b { b with ramWriteEnabled := latchOf d } .done := by
  rintro s rfl
  have hroute : routeWrite s.bus.kind a d = .wrRamen a d := by rw [hkind, routeWrite_ramen d h]
  rw [performWord_writeWord, hroute, exec_wrRamen]

theorem does_romlo (hlo : 0x2000 ≤ a.toNat) (hhi : a.toNat < 0x4000) :
    Does (writeWord a d) b { b with low5 := low5Of d } .done := by
  rintro s rfl
  have hroute : routeWrite s.bus.kind a d = .wrRomlo a d := by rw [hkind, routeWrite_romlo d hlo hhi]
  rw [performWord_writeWord, hroute, exec_wrRomlo]

theorem does_bankhi (hlo : 0x4000 ≤ a.toNat) (hhi : a.toNat < 0x6000) :
    Does (writeWord a d) b (b.setBankHi (valueBank2 d)) .done := by
  rintro s rfl
  rw [performWord_writeWord, hkind, routeWrite_bankhi d hlo hhi, exec_wrBankhi]

theorem does_mode (hlo : 0x6000 ≤ a.toNat) (hhi : a.toNat < 0x8000) :
    Does (writeWord a d) b (b.setMode (modeOf d)) .done := by
  rintro s rfl
  rw [performWord_writeWord, hkind, routeWrite_mode d hlo hhi, exec_wrMode]

end Control

/-! ### A bank switch -/

/-- Settles O34: the read assembles the bank from the low field just written, which is not 0. -/
theorem bankSwitchIsVisibleToTheNextRead : Obligations.BankSwitchIsVisibleToTheNextRead := by
  intro s rest a r d low bank hlive hb hkind hmode halo hahi hrlo hrhi hpending hlow hbank
  obtain ⟨-, ⟨hbanks, -⟩, -⟩ := hb
  have hfield : low = (low5Of d).toNat := by rw [low5Of_toNat, hlow]
  have hlow32 : low % 32 ≠ 0 := by
    have hlt : (low5Of d).toNat < 32 := (low5Of d).isLt
    have hne := low5Of_toNat_ne_zero d
    omega
  have hread : Does (readWord r) { s.bus with low5 := low5Of d } { s.bus with low5 := low5Of d }
      (.byte (s.bus.rom.read (bank * 0x4000 + (r.toNat - 0x4000)))) := by
    intro t ht
    have hhigh : s.bus.high2.toNat = if t.bus.bankingMode = .ramBanking then 0 else t.bus.high2.toNat := by
      rw [ht, hmode]; rfl
    have hn : s.bus.high2.toNat * 32 + low = s.bus.high2.toNat * 32 + t.bus.low5.toNat := by rw [ht, hfield]
    have hkind' : t.bus.kind = .mbc1 := by rw [ht]; exact hkind
    have hbanks' : 1 ≤ t.bus.romBanks := by rw [ht]; exact hbanks
    have hexec := highWindowShowsTheEffectiveBank t r hrlo hrhi hbanks' _ _ bank hhigh hn
      (by rw [if_neg (by omega), hbank, ht])
    rw [performWord_readWord, routeRead_romx _ hrlo hrhi, hkind', routeRomx, hexec, ← finish_bus_self, ht]
  exact ⟨_, run_two_transactions hlive hpending (does_romlo hkind d halo hahi) hread, rfl⟩

/-! ### The latch and the RAM window -/

theorem does_readCell {b : Bus} {a : Addr} {c : Region × Nat} (hb : b.Inv) (h : b.cellOf a = some c) :
    Does (readWord a) b b (.byte ((b.region c.1).read c.2)) := by
  rintro s rfl
  exact performWord_readWord_cell hb h

theorem does_writeCell {b : Bus} {a : Addr} {c : Region × Nat} (hb : b.Inv) (h : b.cellOf a = some c)
    (hlatch : c.1 = .xram → b.ramWriteEnabled = true) (d : Byte) :
    Does (writeWord a d) b (b.setRegion c.1 ((b.region c.1).write c.2 d)) .done := by
  rintro s rfl
  rw [performWord_writeWord_cell hb h hlatch, writeCell_of_lt (cellOf_lt_regionBytes h)]

theorem does_discardedWrite {b : Bus} {a : Addr} (hlo : 0xA000 ≤ a.toNat) (hhi : a.toNat < 0xC000)
    (h : b.ramWriteEnabled = false) (d : Byte) : Does (writeWord a d) b b .done := by
  rintro s rfl
  exact performWord_writeWord_discarded hlo hhi (.inl h) d

/-- Settles O35: with the latch on the write is of the cell that the read shows; with it off the write is discarded. -/
theorem latchWriteGatesTheNextRamWrite : Obligations.LatchWriteGatesTheNextRamWrite := by
  intro s a c e d ha hclo hchi hlive hb hkind hram hpending
  let b : Bus := { s.bus with ramWriteEnabled := latchOf e }
  have hinv : b.Inv := busMove_inv (.latch e) (fun h => by rw [hkind] at h; cases h) hb
  have hcell : b.cellOf c = some (.xram, s.bus.ramPhys c) := (cellOf_xram b hclo hchi).trans (if_neg hram)
  have hlatch : b.ramWriteEnabled = decide (e.toNat % 16 = 0xA) := latchOf_eq_decide_mod e
  by_cases he : e.toNat % 16 = 0xA
  · have hon : b.ramWriteEnabled = true := hlatch.trans (decide_eq_true he)
    let b' : Bus := b.setRegion .xram (s.bus.xram.write (s.bus.ramPhys c) d)
    have hmove : BusMove b b' := .cell .xram (s.bus.ramPhys c) d (cellOf_lt_regionBytes hcell)
    have hinv' : b'.Inv := busMove_inv hmove (fun _ => sameRegisters_setRegion b .xram _) hinv
    have hwf : s.bus.xram.wf := (regionLegal_of_inv hb .xram).1
    refine ⟨_, run_three_transactions hlive hpending (does_ramen hkind e ha)
      (does_writeCell hinv hcell (fun _ => hon) d) (does_readCell (b := b') hinv' hcell), fun _ => ?_,
      fun h => absurd he h⟩
    show s.shown ++ [.done, .done, .byte ((s.bus.xram.write (s.bus.ramPhys c) d).read (s.bus.ramPhys c))] = _
    rw [Memory.read_write_self _ _ _ hwf]
  · have hoff : b.ramWriteEnabled = false := hlatch.trans (decide_eq_false he)
    exact ⟨_, run_three_transactions hlive hpending (does_ramen hkind e ha)
      (does_discardedWrite hclo hchi hoff d) (does_readCell hinv hcell), fun h => absurd h he, fun _ => ⟨rfl, rfl⟩⟩

/-! ### The pseudo-instructions -/

/-- Settles O36: the two writes of SELROM set the fields that n is made of, those of SELRAM the mode and then the field
of that mode. -/
theorem selectorPseudoInstructions : Obligations.SelectorPseudoInstructions := by
  intro s n k hlive hkind
  constructor
  · intro hmode hpending
    let low : Byte := (n.extractLsb' 0 5).setWidth 8
    let high : Byte := (n.extractLsb' 5 2).setWidth 8
    have hraw := rawBank_setBankHi_toNat (b := { s.bus with low5 := low5Of low }) hmode (low5Of_toNat_ne_zero low)
      (valueBank2 high)
    refine ⟨_, run_two_transactions hlive hpending (does_romlo hkind low (by decide) (by decide))
      (does_bankhi (b := { s.bus with low5 := low5Of low }) hkind high (by decide) (by decide)), hraw.trans ?_⟩
    have hn : n.toNat < 128 := n.isLt
    have hlow : low.toNat = n.toNat % 32 := by simp [low]; omega
    have hhigh : high.toNat = n.toNat / 32 := by simp [high, Nat.shiftRight_eq_div_pow]; omega
    rw [valueBank2_toNat, low5Of_toNat, hlow, hhigh]
    split_ifs <;> omega
  · intro hpending
    let b : Bus := s.bus.setMode .ramBanking
    have hk : valueBank2 (k.setWidth 8) = k := by
      apply BitVec.eq_of_toNat_eq
      have := k.isLt
      rw [valueBank2_toNat]; simp; omega
    have hsel : b.setBankHi (valueBank2 (k.setWidth 8)) = { b with ramBankSelector := k } := by
      rw [hk]; exact setBankHi_ramBanking rfl k
    exact ⟨_, run_two_transactions hlive hpending (does_mode hkind 0x01 (by decide) (by decide))
      (does_bankhi (b := b) hkind (k.setWidth 8) (by decide) (by decide)), by rw [hsel]; rfl, by rw [hsel]⟩

end Sys2Proof.Proofs

/-! PROOFS. Construction and the session (70_reset_and_hazards.md section 1; 60_exceptions.md section 3;
44_host_interface.md section 4): what each host operation makes of the session. -/

namespace Sys2Proof.Proofs
open Sys2Proof.Machine

theorem step_unbuilt {s : State} {op : HostOp} {rest : List HostOp} (hunbuilt : s.phase = .unbuilt)
    (hpending : s.pending = op :: rest) : step s = performUnbuilt op { s with pending := rest } := by
  rw [step_cons hpending, perform, hunbuilt]

theorem step_destroyed {s : State} {op : HostOp} {rest : List HostOp} (hdestroyed : s.phase = .destroyed)
    (hpending : s.pending = op :: rest) : step s = .refused .sessionEnded := by
  rw [step_cons hpending, perform, hdestroyed]

theorem performConstruct_bus {l : Launch} {b : Bus} (h : construct l = .bus b) (s : State) :
    performConstruct l s = .next { s with phase := .live, bus := b, shown := s.shown ++ [.bus] } := by
  rw [performConstruct, h]
  rfl

theorem performConstruct_error {l : Launch} {e : ErrorKind} (h : construct l = .error e) (s : State) :
    performConstruct l s = .next (s.answer (.error e)) := by
  rw [performConstruct, h]

/-- The step of an unbuilt session on a construct that builds. -/
theorem step_construct {s : State} {l : Launch} {b : Bus} {rest : List HostOp} (hunbuilt : s.phase = .unbuilt)
    (hpending : s.pending = .construct l :: rest) (h : construct l = .bus b) :
    step s = .next { s with phase := .live, bus := b, pending := rest, shown := s.shown ++ [.bus] } := by
  rw [step_unbuilt hunbuilt hpending]
  exact performConstruct_bus h _

/-- Settles O53: the sequence ends in the fresh bus, whose fields are those of the launch and the reset values. -/
theorem constructGivesTheResetState : Obligations.ConstructGivesTheResetState := by
  intro l c hwf hsize hbanks htitle hconfig hkind hbattery hram
  have hbuilt : construct l = .bus (Bus.fresh l c (headerOf l.logoRef l.image)) := by
    rw [construct_buildWith hwf hsize htitle hbanks ((chosenConfig_eq_ok_iff l c).2 hconfig),
      buildWith_admitted ((admittedConfig_iff c).2 ⟨hkind, hbattery⟩) hram]
  refine ⟨_, hbuilt, rfl, rfl, rfl, rfl, rfl, ?_, rfl, rfl, rfl, rfl, rfl, rfl, rfl, rfl, rfl, rfl, ?_⟩
  · exact Nat.div_mul_cancel (Nat.dvd_of_mod_eq_zero hbanks)
  · intro s rest hunbuilt hpending
    exact step_construct hunbuilt hpending hbuilt

/-- Settles O55: the error is the response, and the session stays where a transaction is refused. -/
theorem failedConstructCreatesNoBus : Obligations.FailedConstructCreatesNoBus := by
  intro s l rest e hunbuilt hpending herror
  let t : State := { s with pending := rest, shown := s.shown ++ [.error e] }
  have hstep : step s = .next t := (step_unbuilt hunbuilt hpending).trans (performConstruct_error herror _)
  exact ⟨t, hstep, hunbuilt, rfl, rfl, fun w more hmore => step_unbuilt (s := t) hunbuilt hmore⟩

theorem construct_reset : construct Launch.reset = .bus Bus.reset := by decide

/-- Settles O56: the launch of log 4 builds the bus of the reset state. -/
theorem resetIsTheConstructionOfItsLaunch : Obligations.ResetIsTheConstructionOfItsLaunch :=
  step_construct rfl rfl construct_reset

/-- Settles O57: destroy ends the session, and that phase admits nothing. -/
theorem nothingIsAdmittedAfterDestroy : Obligations.NothingIsAdmittedAfterDestroy := by
  intro s rest hlive hpending
  refine ⟨_, (step_live hlive hpending).trans rfl, rfl, rfl, rfl, ?_⟩
  intro op more hrest
  exact step_destroyed rfl hrest

end Sys2Proof.Proofs

/-! PROOFS. save and restore (44_host_interface.md R131 to R133): the dump is the bytes of `xram` in offset order, and
the array of a dump holds it byte for byte. -/

namespace Sys2Proof.Proofs
open Sys2Proof.Machine

theorem performSave_ok {s : State} (h : s.bus.battery = true) :
    performSave s =
      .next { s with shown := s.shown ++ [.dump (s.bus.xram.bytesAt 0 (ramBytes s.bus.ramSize))] } := by
  have hsave : saveRam s.bus = .ok (s.bus.xram.bytesAt 0 (ramBytes s.bus.ramSize)) := if_neg (by rw [h]; decide)
  rw [performSave, hsave, ← finish_bus_self]

theorem performSave_notPersistent {s : State} (h : s.bus.battery = false) :
    performSave s = .next { s with shown := s.shown ++ [.error .notPersistent] } := by
  have hsave : saveRam s.bus = .error .notPersistent := if_pos h
  rw [performSave, hsave, ← finish_bus_self]

theorem performRestore_ok {s : State} {data : List Byte} (h : s.bus.battery = true)
    (hlength : data.length = ramBytes s.bus.ramSize) :
    performRestore data s =
      .next { s with bus := { s.bus with xram := Memory.ofBytes data }, shown := s.shown ++ [.nothing] } := by
  have hrestore : restoreRam s.bus data = .ok { s.bus with xram := Memory.ofBytes data } :=
    (if_neg (by rw [h]; decide)).trans (if_neg (not_not.2 hlength))
  rw [performRestore, hrestore]
  rfl

theorem performRestore_notPersistent {s : State} (data : List Byte) (h : s.bus.battery = false) :
    performRestore data s = .next { s with shown := s.shown ++ [.error .notPersistent] } := by
  have hrestore : restoreRam s.bus data = .error .notPersistent := if_pos h
  rw [performRestore, hrestore, ← finish_bus_self]

theorem performRestore_saveSizeMismatch {s : State} {data : List Byte} (h : s.bus.battery = true)
    (hlength : data.length ≠ ramBytes s.bus.ramSize) :
    performRestore data s = .next { s with shown := s.shown ++ [.error .saveSizeMismatch] } := by
  have hrestore : restoreRam s.bus data = .error .saveSizeMismatch :=
    (if_neg (by rw [h]; decide)).trans (if_pos hlength)
  rw [performRestore, hrestore, ← finish_bus_self]

/-- The array of the bytes of an array is that array. -/
theorem ofBytes_bytesAt {m : Memory} {n : Nat} (hwf : m.wf) (hbelow : m.below n) :
    Memory.ofBytes (m.bytesAt 0 n) = m := by
  refine canonicalMemoriesAreEqualByTheirBytes _ _ (Memory.ofBytes_wf _) hwf fun p => ?_
  rw [Memory.read_ofBytes, List.getD_eq_getElem?_getD]
  by_cases hp : p < n
  · rw [Memory.getElem?_bytesAt m 0 n p hp, Nat.zero_add, Option.getD_some]
  · rw [List.getElem?_eq_none (by rw [Memory.length_bytesAt]; omega), Option.getD_none,
      Memory.read_of_below hbelow (by omega)]

/-- The array of a byte sequence holds it byte for byte. -/
theorem getElem?_eq_read_ofBytes {bs : List Byte} {i : Nat} (h : i < bs.length) :
    bs[i]? = some ((Memory.ofBytes bs).read i) := by
  rw [Memory.read_ofBytes, List.getD_eq_getElem?_getD, List.getElem?_eq_getElem h, Option.getD_some]

/-- Settles O58: the dump is the bytes of `xram`, and restoring it gives the array it was made of. -/
theorem saveAndRestoreAreInverse : Obligations.SaveAndRestoreAreInverse := by
  intro s data hb hbattery
  have hlegal := regionLegal_of_inv hb .xram
  have hsame : Memory.ofBytes (s.bus.xram.bytesAt 0 (ramBytes s.bus.ramSize)) = s.bus.xram :=
    ofBytes_bytesAt hlegal.1 hlegal.2
  refine ⟨_, performSave_ok hbattery, Memory.length_bytesAt _ _ _, fun i hi => ?_, ?_, fun hlength => ?_⟩
  · rw [Memory.getElem?_bytesAt _ 0 _ i hi, Nat.zero_add]
  · rw [performRestore_ok hbattery (Memory.length_bytesAt _ _ _), hsame]
  · exact ⟨_, performRestore_ok hbattery hlength, fun i hi => getElem?_eq_read_ofBytes hi⟩

/-- Settles O59: the battery is tested before the length, and neither error touches the bus. -/
theorem failedSaveOrRestoreChangesNothing : Obligations.FailedSaveOrRestoreChangesNothing := by
  intro s data
  exact ⟨fun h => ⟨performSave_notPersistent h, performRestore_notPersistent data h⟩,
    fun h hlength => performRestore_saveSizeMismatch h hlength⟩

end Sys2Proof.Proofs

/-! PROOFS. The header (40_header.md): the configuration of the type and RAM bytes (R82 to R84), the title (R68), and an
image with one logo byte changed (R77). -/

namespace Sys2Proof.Proofs
open Sys2Proof.Machine

/-! ### The configuration -/

theorem cartridgeOf_unsupported {t : Byte} (h : 3 < t.toNat) : cartridgeOf t = .error .unsupportedControllerKind := by
  rw [cartridgeOf, if_neg, if_neg, if_neg, if_neg] <;> bv_omega

theorem ramSizeOf_unsupported {c : Byte} (h : 3 < c.toNat) : ramSizeOf c = .error .unsupportedControllerKind := by
  rw [ramSizeOf, if_neg, if_neg, if_neg, if_neg] <;> bv_omega

theorem configOf_noRam {h : Header} {k : Kind} {battery : Bool}
    (ht : cartridgeOf h.cartridgeType = .ok (k, false, battery)) : configOf h = .ok ⟨k, .absent, false⟩ := by
  rw [configOf, ht]

theorem configOf_ram {h : Header} {k : Kind} {battery : Bool} {size : RamSize}
    (ht : cartridgeOf h.cartridgeType = .ok (k, true, battery)) (hsize : ramSizeOf h.ramSizeByte = .ok size) :
    configOf h = .ok ⟨k, size, battery && decide (size ≠ .absent)⟩ := by
  simp only [configOf, ht, hsize]

theorem configOf_cartridgeError {h : Header} {e : ErrorKind} (ht : cartridgeOf h.cartridgeType = .error e) :
    configOf h = .error e := by
  rw [configOf, ht]

theorem configOf_ramSizeError {h : Header} {k : Kind} {battery : Bool} {e : ErrorKind}
    (ht : cartridgeOf h.cartridgeType = .ok (k, true, battery)) (hsize : ramSizeOf h.ramSizeByte = .error e) :
    configOf h = .error e := by
  simp only [configOf, ht, hsize]

/-- Settles O52: the two tables, and the RAM size code read only where the type byte gives RAM. -/
theorem configurationOfTheTypeAndRamBytes : Obligations.ConfigurationOfTheTypeAndRamBytes := by
  intro h size
  have ram : h.cartridgeType = 0x02 → cartridgeOf h.cartridgeType = .ok (.mbc1, true, false) := fun e => by rw [e]; rfl
  have ramBattery : h.cartridgeType = 0x03 → cartridgeOf h.cartridgeType = .ok (.mbc1, true, true) :=
    fun e => by rw [e]; rfl
  refine ⟨fun e => ?_, fun e => ?_, fun e => configOf_cartridgeError (cartridgeOf_unsupported e), ?_, fun hcode => ?_⟩
  · exact configOf_noRam (battery := false) (by rw [e]; rfl)
  · exact configOf_noRam (battery := false) (by rw [e]; rfl)
  · rintro (e | e) hcode
    · exact configOf_ramSizeError (ram e) (ramSizeOf_unsupported hcode)
    · exact configOf_ramSizeError (ramBattery e) (ramSizeOf_unsupported hcode)
  · have hsize : ramSizeOf h.ramSizeByte = .ok size := by
      rcases hcode with ⟨e, rfl⟩ | ⟨e, rfl⟩ | ⟨e, rfl⟩ | ⟨e, rfl⟩ <;> rw [e] <;> rfl
    exact ⟨fun e => configOf_ram (ram e) hsize, fun e => configOf_ram (ramBattery e) hsize⟩

/-! ### The title -/

/-- A list is what is left of it without its padding, then the padding. -/
theorem dropPadding_append (t : List Byte) :
    t = dropPadding t ++ (t.reverse.takeWhile (fun b => decide (0x80 ≤ b))).reverse := by
  rw [dropPadding, ← List.reverse_append, List.takeWhile_append_dropWhile, List.reverse_reverse]

/-- What is left does not end in padding. -/
theorem getLast?_dropPadding {t : List Byte} {b : Byte} (h : (dropPadding t).getLast? = some b) : b.toNat < 0x80 := by
  rw [dropPadding, List.getLast?_reverse] at h
  have hnot := List.head?_dropWhile_not (fun b : Byte => decide (0x80 ≤ b)) t.reverse
  rw [h] at hnot
  simpa [BitVec.le_def] using hnot

/-- Settles O50: the region is the part before its first null and the rest, and that part the title and its padding. -/
theorem titleIsCutAtNullAndStripped : Obligations.TitleIsCutAtNullAndStripped := by
  intro img
  let text := (img.bytesAt 0x134 16).takeWhile (fun b => decide (b ≠ 0x00))
  let pad := (text.reverse.takeWhile (fun b => decide (0x80 ≤ b))).reverse
  let tail := (img.bytesAt 0x134 16).dropWhile (fun b => decide (b ≠ 0x00))
  have htext : text = titleOf img ++ pad := dropPadding_append text
  refine ⟨pad, tail, ?_, fun b hb => ?_, fun b hb => ?_, ?_, fun b hb => getLast?_dropPadding hb⟩
  · rw [← htext, List.takeWhile_append_dropWhile]
  · rw [← htext] at hb
    have hne := List.mem_takeWhile_imp (p := fun b : Byte => decide (b ≠ 0x00)) hb
    exact of_decide_eq_true hne
  · have hpad := List.mem_takeWhile_imp (List.mem_reverse.1 hb)
    exact of_decide_eq_true hpad
  · cases htail : tail.head? with
    | none => exact .inl (List.head?_eq_none_iff.1 htail)
    | some b =>
      have hnot := List.head?_dropWhile_not (fun b : Byte => decide (b ≠ 0x00)) (img.bytesAt 0x134 16)
      rw [show List.head? _ = some b from htail] at hnot
      exact .inr (congrArg some (by simpa using hnot))

/-! ### One byte of an image changed -/

/-- The image with byte `p` set to `v`. -/
def setByte (img : Image) (p : Nat) (v : Byte) : Image := { img with bytes := img.bytes.write p v }

section ChangedByte
variable {img : Image} {p : Nat} (v : Byte)

theorem byte_setByte_self (h : img.wf) : (setByte img p v).byte p = v := Memory.read_write_self _ p v h.1

theorem byte_setByte_ne {q : Nat} (h : q ≠ p) : (setByte img p v).byte q = img.byte q := Memory.read_write_ne _ p q v h

theorem wf_setByte (h : img.wf) (hp : p < img.size) : (setByte img p v).wf :=
  ⟨Memory.write_wf p v h.1, Memory.write_below v h.2 hp⟩

/-- A byte below the header checksum's range does not enter it. -/
theorem headerChecksum_setByte (hp : p < 0x134) : headerChecksum (setByte img p v) = headerChecksum img := by
  have hbytes : (setByte img p v).bytesAt 0x134 25 = img.bytesAt 0x134 25 := by
    rw [bytesAt_eq_map_byte, bytesAt_eq_map_byte]
    refine List.map_congr_left fun i hi => byte_setByte_ne v ?_
    have := (List.mem_range'_1.1 hi).1
    omega
  rw [headerChecksum, headerChecksum, hbytes]

/-- The global checksum as a sum over the offsets. -/
theorem globalChecksum_eq_sum (h : img.wf) :
    globalChecksum img = ((List.range img.size).map fun i => globalTerm (i, img.byte i)).sum :=
  (foldl_add_eq_sum_map globalTerm img.bytes).trans (sum_globalTerm_cells h.1 h.2)

/-- The global checksum moves by the difference of the byte's terms. -/
theorem globalChecksum_setByte (h : img.wf) (hp : p < img.size) :
    globalChecksum (setByte img p v) = globalTerm (p, v) - globalTerm (p, img.byte p) + globalChecksum img := by
  have hterm (i : Nat) : globalTerm (i, (setByte img p v).byte i) =
      if i = p then globalTerm (i, v) else globalTerm (i, img.byte i) := by
    split_ifs with hi
    · rw [hi, byte_setByte_self v h]
    · rw [byte_setByte_ne v hi]
  have hcount : (List.range img.size).count p = 1 :=
    List.count_eq_one_of_mem List.nodup_range (List.mem_range.mpr hp)
  have hsum := globalChecksum_eq_sum (wf_setByte v h hp)
  simp only [hterm] at hsum
  rw [hsum, List.sum_map_ite_eq, show (setByte img p v).size = img.size from rfl, hcount, one_nsmul,
    ← globalChecksum_eq_sum h]

end ChangedByte

theorem globalTerm_of_ne {p : Nat} (h1 : p ≠ 0x14E) (h2 : p ≠ 0x14F) (v : Byte) : globalTerm (p, v) = v.setWidth 16 :=
  if_neg (not_or.2 ⟨h1, h2⟩)

/-- A logo with one byte changed is no longer LOGO_REF. -/
theorem logoMatches_setByte {ref : List Byte} {img : Image} {p : Nat} {v : Byte} (h : img.wf) (hlo : 0x104 ≤ p)
    (hhi : p < 0x134) (hv : v ≠ img.byte p) (hlogo : logoMatches ref img = true) :
    logoMatches ref (setByte img p v) = false := by
  have hlength : ref.length = 48 := by
    rw [← of_decide_eq_true hlogo]
    exact Memory.length_bytesAt img.bytes 0x104 48
  have hold := (logoMatches_iff img hlength).1 hlogo (p - 0x104) (by omega)
  rw [Bool.eq_false_iff]
  intro hnew
  have hnew' := (logoMatches_iff _ hlength).1 hnew (p - 0x104) (by omega)
  rw [show 0x104 + (p - 0x104) = p by omega] at hold hnew'
  rw [byte_setByte_self v h, hold] at hnew'
  exact hv (Option.some.inj hnew').symm

/-- Settles O49: the byte lies in the logo, below the range of the header checksum and off the two checksum offsets. -/
theorem changedLogoByteIsNotRunnable : Obligations.ChangedLogoByteIsNotRunnable := by
  rintro ref img img' p v hwf hsize hlo hhi hv hlogo rfl
  have hbad := logoMatches_setByte hwf hlo hhi hv hlogo
  refine ⟨hbad, ?_, headerChecksum_setByte v hhi, ?_⟩
  · rw [Bool.eq_false_iff]
    intro hrunnable
    have hgood := ((isRunnable_headerOf_iff ref (setByte img p v)).1 hrunnable).2
    rw [hbad] at hgood
    cases hgood
  · have hmove := globalChecksum_setByte v hwf (show p < img.size by omega)
    rw [globalTerm_of_ne (by omega) (by omega), globalTerm_of_ne (by omega) (by omega)] at hmove
    exact hmove.trans (by abel)

end Sys2Proof.Proofs

/-! PROOFS. The header queries and the debug report (44_host_interface.md R130, R135): each query reads the header, each
check of the report is its verdict, and the text holds every item. -/

namespace Sys2Proof.Proofs
open Sys2Proof.Machine

theorem performQuery_eq_next (q : HeaderQuery) (s : State) :
    performQuery q s = .next { s with shown := s.shown ++ [.answer (answerOf s.bus.header q)] } := rfl

/-- The answer that a query's step showed is the one of the header. -/
theorem answer_of_performQuery {q : HeaderQuery} {a : HeaderAnswer} {s : State}
    (h : performQuery q s = .next { s with shown := s.shown ++ [.answer a] }) : answerOf s.bus.header q = a := by
  rw [performQuery_eq_next] at h
  have hshown := congrArg State.shown (Host.Outcome.next.inj h)
  simpa using hshown

/-- The raw bytes of a header as parsed, at their offsets (D16). -/
theorem rawBytes_of_headerLegal {b : Bus} (h : b.headerLegal) :
    b.header.manufacturer = [b.rom.read 0x13F, b.rom.read 0x140, b.rom.read 0x141, b.rom.read 0x142] ∧
    b.header.cartridgeType = b.rom.read 0x147 ∧ b.header.romSizeByte = b.rom.read 0x148 ∧
    b.header.ramSizeByte = b.rom.read 0x149 ∧ b.header.version = b.rom.read 0x14C ∧
    b.header.declaredHeaderChecksum = b.rom.read 0x14D := by
  obtain ⟨hheader, -⟩ := h
  rw [hheader]
  exact ⟨rfl, rfl, rfl, rfl, rfl, rfl⟩

theorem checkWord_eq_ok_iff (ok : Bool) : checkWord ok = .ok ↔ ok = true := by cases ok <;> decide

theorem checkText_eq_ite (w : CheckWord) : checkText w = if w = .ok then "OK" else "FAILED" := by cases w <;> rfl

theorem headerChecksumOk_iff (h : Header) :
    headerChecksumOk h = true ↔ h.computedHeaderChecksum = h.declaredHeaderChecksum := decide_eq_true_iff

theorem globalChecksumOk_iff (h : Header) :
    globalChecksumOk h = true ↔ h.computedGlobalChecksum = h.declaredGlobalChecksum := decide_eq_true_iff

/-- A field of the report is spelled by the layout; the checks, which are flags, are not. -/
theorem reportItem_of_field {h : Header} {q : HeaderQuery} {a : HeaderAnswer} (ha : answerOf h q = a)
    (hfield : ∀ v, a ≠ .flag v) : reportItem (reportOf h) q = Config.debugLayout.spell q a := by
  subst ha
  cases q with
  | logoOk | headerChecksumOk | globalChecksumOk | isRunnable => exact absurd rfl (hfield _)
  | title | manufacturer | color | licensee | superConsole | cartridgeType | romSizeByte | ramSizeByte | region
  | version | declaredHeaderChecksum | computedHeaderChecksum | declaredGlobalChecksum | computedGlobalChecksum => rfl

/-- The checks of the report are the verdicts on its header. -/
theorem reportOf_checks (h : Header) :
    ((reportOf h).logo = .ok ↔ h.logoOk = true) ∧
    ((reportOf h).headerChecksum = .ok ↔ h.computedHeaderChecksum = h.declaredHeaderChecksum) ∧
    ((reportOf h).globalChecksum = .ok ↔ h.computedGlobalChecksum = h.declaredGlobalChecksum) ∧
    ((reportOf h).runnability = .ok ↔ (reportOf h).logo = .ok ∧ (reportOf h).headerChecksum = .ok) := by
  refine ⟨checkWord_eq_ok_iff _, ?_, ?_, ?_⟩
  · rw [← headerChecksumOk_iff]; exact checkWord_eq_ok_iff _
  · rw [← globalChecksumOk_iff]; exact checkWord_eq_ok_iff _
  · simp only [reportOf, checkWord_eq_ok_iff, isRunnable, Bool.and_eq_true]
    exact and_comm

/-- Settles O60: a query answers with the header's own field or verdict; the report's words and items are those of
`reportOf` and `reportItem`, and the layout is faithful. -/
theorem queriesAndReportReadTheHeader : Obligations.QueriesAndReportReadTheHeader := by
  refine ⟨fun s q => ⟨_, performQuery_eq_next q s, ?_⟩, fun s => ?_, Config.debugLayout.faithful⟩
  · refine ⟨?_, ?_, ?_, ?_, ?_, ?_, ?_, ?_, ?_, ?_, ?_, ?_, ?_, ?_, ?_, ?_, ?_, ?_, ?rawBytes⟩
    case rawBytes =>
      intro hlegal
      obtain ⟨hmanufacturer, htype, hrom, hram, hversion, hchecksum⟩ := rawBytes_of_headerLegal hlegal
      refine ⟨?_, ?_, ?_, ?_, ?_, ?_⟩ <;> rintro rfl
      · exact congrArg _ hmanufacturer
      · exact congrArg _ htype
      · exact congrArg _ hrom
      · exact congrArg _ hram
      · exact congrArg _ hversion
      · exact congrArg _ hchecksum
    all_goals rintro rfl; rfl
  · obtain ⟨hlogo, hheader, hglobal, hrunnable⟩ := reportOf_checks s.bus.header
    obtain ⟨parts, last, hall, htext⟩ := reportText_eq_parts (reportOf s.bus.header)
    refine ⟨reportOf s.bus.header, reportText (reportOf s.bus.header), rfl, rfl, hlogo, hheader, hglobal, hrunnable,
      parts, last, reportItem (reportOf s.bus.header), htext, hall, checkText_eq_ite _, checkText_eq_ite _,
      checkText_eq_ite _, checkText_eq_ite _, fun q a hq hfield => ?_⟩
    exact reportItem_of_field (answer_of_performQuery hq) hfield

end Sys2Proof.Proofs

/-! PROOFS. The opcode table (30_encoding.md R57): each row covers one interval of words, the rows that a kind sees are
disjoint, and the rows of an operation tile its words; so the table names what the decoder reads, once. -/

namespace Sys2Proof.Proofs
open Sys2Proof.Machine

/-! ### A mask of high bits -/

theorem testBit_highMask {n : Nat} (hn : n ≤ 25) (i : Nat) :
    (2 ^ 25 - 2 ^ n).testBit i = (decide (i < 25) && decide (n ≤ i)) := by
  have hpos : 2 ^ n - 1 + 1 = 2 ^ n := Nat.sub_add_cancel Nat.one_le_two_pow
  have hlt : 2 ^ n - 1 < 2 ^ 25 := lt_of_lt_of_le (by omega) (Nat.pow_le_pow_right (by decide) hn)
  rw [← hpos, Nat.testBit_two_pow_sub_succ hlt, Nat.testBit_two_pow_sub_one, ← decide_not]
  simp only [Nat.not_lt]

/-- Masking the low `n` bits away from a word of 25 bits. -/
theorem and_highMask {w n : Nat} (hw : w < 2 ^ 25) (hn : n ≤ 25) : w &&& (2 ^ 25 - 2 ^ n) = 2 ^ n * (w / 2 ^ n) := by
  apply Nat.eq_of_testBit_eq
  intro i
  rw [Nat.testBit_and, testBit_highMask hn, Nat.testBit_two_pow_mul, Nat.testBit_div_two_pow]
  by_cases hni : n ≤ i
  · rw [Nat.sub_add_cancel hni]
    by_cases hi : i < 25
    · simp [hi, hni]
    · have hbit : w.testBit i = false :=
        Nat.testBit_lt_two_pow (lt_of_lt_of_le hw (Nat.pow_le_pow_right (by decide) (by omega)))
      simp [hbit]
  · simp [hni]

/-- The same mask with the low byte kept. -/
theorem and_highMask_byte {w n : Nat} (hw : w < 2 ^ 25) (h8 : 8 ≤ n) (hn : n ≤ 25) :
    w &&& (2 ^ 25 - 2 ^ n + 255) = 2 ^ n * (w / 2 ^ n) + w % 256 := by
  have hle : 2 ^ 8 ≤ 2 ^ n := Nat.pow_le_pow_right (by decide) h8
  have hmask : 2 ^ 25 - 2 ^ n + 255 = (2 ^ 25 - 2 ^ n) ||| 255 := by
    have hfactor : 2 ^ 25 - 2 ^ n = 2 ^ n * (2 ^ (25 - n) - 1) := by
      rw [Nat.mul_sub, ← Nat.pow_add, Nat.add_sub_cancel' hn, Nat.mul_one]
    rw [hfactor, Nat.two_pow_add_eq_or_of_lt (by omega)]
  rw [hmask, Nat.and_or_distrib_left, and_highMask hw hn, Nat.and_two_pow_sub_one_eq_mod w 8,
    Nat.two_pow_add_eq_or_of_lt (by omega)]

/-- A word falls in the interval of `2 ^ n` words from a multiple of `2 ^ n` on. -/
theorem mul_div_eq_iff {w n p : Nat} (hp : 2 ^ n ∣ p) : 2 ^ n * (w / 2 ^ n) = p ↔ p ≤ w ∧ w < p + 2 ^ n := by
  obtain ⟨q, rfl⟩ := hp
  have hpos : 0 < 2 ^ n := Nat.two_pow_pos n
  rw [Nat.mul_right_inj hpos.ne', Nat.div_eq_iff hpos, Nat.mul_comm q]
  omega

/-! ### The rows as intervals -/

/-- The row's mask keeps the bits from `n` up, and of a read the low byte too, which the pattern has 0. -/
def rowShape (r : OpcodeRow) (n : Nat) : Prop :=
  8 ≤ n ∧ n ≤ 25 ∧ 2 ^ n ∣ r.pattern ∧
  (r.mask = 2 ^ 25 - 2 ^ n + 255 ∧ r.pattern + 2 ^ n ≤ 2 ^ 24 ∨
    r.mask = 2 ^ 25 - 2 ^ n ∧ 2 ^ 24 ≤ r.pattern)

/-- How many words a row's mask leaves open, the low byte of a read not counted. -/
def span (r : OpcodeRow) : Nat := 2 ^ 25 - r.mask / 256 * 256

/-- The word lies in the row's interval. -/
def inRow (r : OpcodeRow) (w : Nat) : Prop := r.pattern ≤ w ∧ w < r.pattern + span r

theorem span_of_rowShape {r : OpcodeRow} {n : Nat} (h : rowShape r n) : span r = 2 ^ n := by
  obtain ⟨h8, hn, -, hmask⟩ := h
  obtain ⟨m, rfl⟩ := Nat.exists_eq_add_of_le h8
  have hle : 2 ^ (8 + m) ≤ 2 ^ 25 := Nat.pow_le_pow_right (by decide) hn
  have hpow : 2 ^ (8 + m) = 256 * 2 ^ m := Nat.pow_add 2 8 m
  unfold span
  rcases hmask with ⟨hmask, -⟩ | ⟨hmask, -⟩ <;> rw [hmask] <;> omega

/-- Which words a row's mask and pattern pick: the interval, and of reads those with a value of 0. -/
theorem and_mask_eq_pattern_iff {r : OpcodeRow} {n w : Nat} (h : rowShape r n) (hw : w < 2 ^ 25) :
    w &&& r.mask = r.pattern ↔ inRow r w ∧ (2 ^ 24 ≤ w ∨ w % 256 = 0) := by
  rw [inRow, span_of_rowShape h]
  obtain ⟨h8, hn, hdvd, ⟨hmask, hread⟩ | ⟨hmask, hwrite⟩⟩ := h
  · have hbyte : 2 ^ 8 ∣ 2 ^ n := Nat.pow_dvd_pow 2 h8
    have hzero : r.pattern % 256 = 0 := Nat.mod_eq_zero_of_dvd (hbyte.trans hdvd)
    have hmul : 2 ^ n * (w / 2 ^ n) % 256 = 0 := Nat.mod_eq_zero_of_dvd (hbyte.trans (Nat.dvd_mul_right _ _))
    have hiff := mul_div_eq_iff (w := w) hdvd
    rw [hmask, and_highMask_byte hw h8 hn]
    omega
  · rw [hmask, and_highMask hw hn, mul_div_eq_iff hdvd]
    omega

/-- The shape of each row of the table. -/
theorem rowShape_of_mem {r : OpcodeRow} (h : r ∈ opcodeTable) : ∃ n, rowShape r n := by
  have hall : ∀ r ∈ opcodeTable, ∃ n ∈ List.range 26, rowShape r n := by unfold rowShape; decide
  obtain ⟨n, -, hn⟩ := hall r h
  exact ⟨n, hn⟩

/-- The kind of a row is that of its operation. -/
theorem kind?_of_mem {r : OpcodeRow} (h : r ∈ opcodeTable) : r.kind? = r.op.kind? := by
  have hall : ∀ r ∈ opcodeTable, r.kind? = r.op.kind? := by decide
  exact hall r h

/-- A row of the table covers the words of its interval, of reads those with a value of 0, on a bus that has its
operation. -/
theorem covers_iff {r : OpcodeRow} {k : Kind} {w : Nat} (h : r ∈ opcodeTable) (hw : w < 2 ^ 25) :
    r.covers k w = true ↔ (inRow r w ∧ (2 ^ 24 ≤ w ∨ w % 256 = 0)) ∧ r.op.ofKind k = true := by
  obtain ⟨n, hn⟩ := rowShape_of_mem h
  rw [OpcodeRow.covers, Bool.and_eq_true, decide_eq_true_iff, and_mask_eq_pattern_iff hn hw, kind?_of_mem h, Op.ofKind]

/-! ### At most one row -/

/-- No kind sees both rows, or their intervals are disjoint. -/
def apart (r q : OpcodeRow) : Bool :=
  (decide (r.op.kind? ≠ none) && decide (q.op.kind? ≠ none) && decide (r.op.kind? ≠ q.op.kind?)) ||
  decide (r.pattern + span r ≤ q.pattern) || decide (q.pattern + span q ≤ r.pattern)

theorem opcodeTable_apart : opcodeTable.Pairwise (fun r q => apart r q = true) := by decide +kernel

theorem not_covers_both {r q : OpcodeRow} {k : Kind} {w : Nat} (h : apart r q = true) (hr : r ∈ opcodeTable)
    (hq : q ∈ opcodeTable) (hw : w < 2 ^ 25) (hcr : r.covers k w = true) : q.covers k w = false := by
  rw [Bool.eq_false_iff]
  intro hcq
  obtain ⟨⟨⟨hr1, hr2⟩, -⟩, hrk⟩ := (covers_iff hr hw).1 hcr
  obtain ⟨⟨⟨hq1, hq2⟩, -⟩, hqk⟩ := (covers_iff hq hw).1 hcq
  rw [ofKind_iff] at hrk hqk
  simp only [apart, Bool.or_eq_true, Bool.and_eq_true, decide_eq_true_iff] at h
  rcases h with (⟨⟨hrn, hqn⟩, hne⟩ | h) | h
  · exact hne ((hrk.resolve_left hrn).trans (hqk.resolve_left hqn).symm)
  · omega
  · omega

/-- A row that covers a word is the only one. -/
theorem filter_covers_eq_singleton {r : OpcodeRow} {k : Kind} {w : Nat} (h : r ∈ opcodeTable) (hw : w < 2 ^ 25)
    (hc : r.covers k w = true) : opcodeTable.filter (fun q => q.covers k w) = [r] := by
  have hmem (q : OpcodeRow) (hq : q ∈ opcodeTable.filter (fun q => q.covers k w)) :
      q ∈ opcodeTable ∧ q.covers k w = true := List.mem_filter.1 hq
  have hpairs := opcodeTable_apart.filter (fun q => q.covers k w)
  have hr : r ∈ opcodeTable.filter (fun q => q.covers k w) := List.mem_filter.2 ⟨h, hc⟩
  generalize opcodeTable.filter (fun q => q.covers k w) = rows at hmem hpairs hr
  match rows, hmem, hpairs, hr with
  | [q], _, _, hr => rw [List.mem_singleton.1 hr]
  | q :: q' :: _, hmem, hpairs, _ =>
    obtain ⟨hq, hcq⟩ := hmem q (by simp)
    obtain ⟨hq', hcq'⟩ := hmem q' (by simp)
    have hapart := (List.pairwise_cons.1 hpairs).1 q' (by simp)
    rw [not_covers_both hapart hq hq' hw hcq] at hcq'
    cases hcq'

/-! ### At least one row -/

/-- The rows' intervals follow one another from `lo` to `hi`. -/
def tiles (lo : Nat) (rows : List OpcodeRow) (hi : Nat) : Bool :=
  match rows with
  | [] => decide (lo = hi)
  | r :: rest => decide (r.pattern = lo) && tiles (lo + span r) rest hi

theorem exists_inRow_of_tiles {lo hi w : Nat} {rows : List OpcodeRow} (h : tiles lo rows hi = true) (hlo : lo ≤ w)
    (hhi : w < hi) : ∃ r ∈ rows, inRow r w := by
  induction rows generalizing lo with
  | nil =>
    have : lo = hi := of_decide_eq_true h
    omega
  | cons r rest ih =>
    rw [tiles, Bool.and_eq_true, decide_eq_true_iff] at h
    obtain ⟨hpattern, hrest⟩ := h
    by_cases hw : w < lo + span r
    · exact ⟨r, List.mem_cons_self, hpattern ▸ hlo, hpattern ▸ hw⟩
    · obtain ⟨q, hq, hin⟩ := ih hrest (by omega)
      exact ⟨q, List.mem_cons_of_mem r hq, hin⟩

/-- The rows of an operation. -/
def rowsOf (o : Op) : List OpcodeRow := opcodeTable.filter (fun r => decide (r.op = o))

/-- Rows of an operation that tile an interval with the word in it. -/
theorem exists_row {o : Op} {lo hi w : Nat} (rows : List OpcodeRow) (hrows : rows ⊆ rowsOf o)
    (h : tiles lo rows hi = true) (hlo : lo ≤ w) (hhi : w < hi) : ∃ r ∈ opcodeTable, r.op = o ∧ inRow r w := by
  obtain ⟨r, hr, hin⟩ := exists_inRow_of_tiles h hlo hhi
  obtain ⟨hmem, hop⟩ := List.mem_filter.1 (hrows hr)
  exact ⟨r, hmem, of_decide_eq_true hop, hin⟩

/-- Rows that tile the words of the reads of an address range. -/
theorem exists_row_of_read {i : Instr} {a lo hi : Addr} (h : Addr.within a lo hi = true) (rows : List OpcodeRow)
    (hrows : rows ⊆ rowsOf i.op) (htiles : tiles (lo.toNat * 2 ^ 8) rows ((hi.toNat + 1) * 2 ^ 8) = true)
    (ha : i.addr = a) (hv : i.value? = none) : ∃ r ∈ opcodeTable, r.op = i.op ∧ inRow r (encode i) := by
  obtain ⟨hlo, hhi⟩ := (within_iff a lo hi).1 h
  rw [encode_of_read hv, ha, readWord]
  exact exists_row rows hrows htiles (by omega) (by omega)

/-- Rows that tile the words of the writes of an address range. -/
theorem exists_row_of_write {i : Instr} {a lo hi : Addr} {d : Byte} (h : Addr.within a lo hi = true)
    (rows : List OpcodeRow) (hrows : rows ⊆ rowsOf i.op)
    (htiles : tiles (2 ^ 24 + lo.toNat * 2 ^ 8) rows (2 ^ 24 + (hi.toNat + 1) * 2 ^ 8) = true)
    (ha : i.addr = a) (hv : i.value? = some d) : ∃ r ∈ opcodeTable, r.op = i.op ∧ inRow r (encode i) := by
  obtain ⟨hlo, hhi⟩ := (within_iff a lo hi).1 h
  have hd := d.isLt
  rw [encode_of_write hv, ha, writeWord]
  exact exists_row rows hrows htiles (by omega) (by omega)

/-- The unhandled ranges: 0xFE00 to 0xFF7F, and 0xFFFF alone. -/
theorem isUnhandled_split {a : Addr} (h : a.isUnhandled = true) :
    Addr.within a 0xFE00 0xFF7F = true ∨ Addr.within a 0xFFFF 0xFFFF = true := by
  rcases (isUnhandled_iff a).1 h with h | h
  · exact .inl ((within_iff _ _ _).2 h)
  · exact .inr ((within_iff _ _ _).2 ⟨h.ge, h.le⟩)

/-- Each operation's rows tile the words of its range; of RD.UNH and WR.UNH two rows tile the first of the two ranges
and the third row is the second. -/
theorem exists_row_of_inRange {i : Instr} (h : i.inRange = true) :
    ∃ r ∈ opcodeTable, r.op = i.op ∧ inRow r (encode i) := by
  have all (o : Op) : rowsOf o ⊆ rowsOf o := List.Subset.refl _
  cases i with
  | rdRom0 a => exact exists_row_of_read h (rowsOf .rdRom0) (all _) (by decide) rfl rfl
  | rdRomxMbc1 a => exact exists_row_of_read h (rowsOf .rdRomxMbc1) (all _) (by decide) rfl rfl
  | rdRomxNone a => exact exists_row_of_read h (rowsOf .rdRomxNone) (all _) (by decide) rfl rfl
  | rdVram a => exact exists_row_of_read h (rowsOf .rdVram) (all _) (by decide) rfl rfl
  | rdXramMbc1 a => exact exists_row_of_read h (rowsOf .rdXramMbc1) (all _) (by decide) rfl rfl
  | rdXramNone a => exact exists_row_of_read h (rowsOf .rdXramNone) (all _) (by decide) rfl rfl
  | rdWram a => exact exists_row_of_read h (rowsOf .rdWram) (all _) (by decide) rfl rfl
  | rdEcho a => exact exists_row_of_read h (rowsOf .rdEcho) (all _) (by decide) rfl rfl
  | rdHram a => exact exists_row_of_read h (rowsOf .rdHram) (all _) (by decide) rfl rfl
  | rdUnh a =>
    rcases isUnhandled_split h with h | h
    · exact exists_row_of_read h ((rowsOf .rdUnh).take 2) (List.take_subset _ _) (by decide) rfl rfl
    · exact exists_row_of_read h ((rowsOf .rdUnh).drop 2) (List.drop_subset _ _) (by decide) rfl rfl
  | wrRamen a d => exact exists_row_of_write h (rowsOf .wrRamen) (all _) (by decide) rfl rfl
  | wrRomlo a d => exact exists_row_of_write h (rowsOf .wrRomlo) (all _) (by decide) rfl rfl
  | wrBankhi a d => exact exists_row_of_write h (rowsOf .wrBankhi) (all _) (by decide) rfl rfl
  | wrMode a d => exact exists_row_of_write h (rowsOf .wrMode) (all _) (by decide) rfl rfl
  | wrCtrlNone a d => exact exists_row_of_write h (rowsOf .wrCtrlNone) (all _) (by decide) rfl rfl
  | wrVram a d => exact exists_row_of_write h (rowsOf .wrVram) (all _) (by decide) rfl rfl
  | wrXramMbc1 a d => exact exists_row_of_write h (rowsOf .wrXramMbc1) (all _) (by decide) rfl rfl
  | wrXramNone a d => exact exists_row_of_write h (rowsOf .wrXramNone) (all _) (by decide) rfl rfl
  | wrWram a d => exact exists_row_of_write h (rowsOf .wrWram) (all _) (by decide) rfl rfl
  | wrEcho a d => exact exists_row_of_write h (rowsOf .wrEcho) (all _) (by decide) rfl rfl
  | wrHram a d => exact exists_row_of_write h (rowsOf .wrHram) (all _) (by decide) rfl rfl
  | wrUnh a d =>
    rcases isUnhandled_split h with h | h
    · exact exists_row_of_write h ((rowsOf .wrUnh).take 2) (List.take_subset _ _) (by decide) rfl rfl
    · exact exists_row_of_write h ((rowsOf .wrUnh).drop 2) (List.drop_subset _ _) (by decide) rfl rfl

/-- Settles O3: a word that decodes lies in a row of its operation, which is then the only one that covers it; a read
word with a value lies in no row. -/
theorem decoderAgreesWithTheOpcodeTable : Obligations.DecoderAgreesWithTheOpcodeTable := by
  intro k w hw
  rcases decode_outcomes k w with ⟨hle, -⟩ | ⟨hread, hvalue, h⟩ | ⟨-, hvalue, i, h⟩
  · omega
  · have hnone : opcodeTable.filter (fun r => r.covers k w) = [] := by
      refine List.filter_eq_nil_iff.2 fun r hr hc => ?_
      obtain ⟨⟨-, hok⟩, -⟩ := (covers_iff hr hw).1 hc
      omega
    rw [hnone, h]
    rfl
  · obtain ⟨hwf, rfl⟩ := decodedInstructionIsWellFormedAndEncodesBack k w i h
    obtain ⟨hkind, hrange⟩ := (wellFormed_iff k i).1 hwf
    obtain ⟨r, hr, hop, hin⟩ := exists_row_of_inRange hrange
    have hc : r.covers k (encode i) = true :=
      (covers_iff hr hw).2 ⟨⟨hin, hvalue⟩, hop ▸ (ofKind_iff k i.op).2 hkind⟩
    rw [filter_covers_eq_singleton hr hw hc, h]
    exact congrArg (fun o => [o]) hop

end Sys2Proof.Proofs

/-! PROOFS. Valid text (40_header.md R69; log 12): what the recogniser does with a character's first byte and with each
continuation byte, and from it that the accepted sequences are the encodings of characters. -/

namespace Sys2Proof.Proofs
open Sys2Proof.Machine

/-! ### The recogniser, byte by byte -/

/-- Where `n + 1` continuation bytes are to come, the next is in its range and the rest go on. -/
theorem utf8From_succ_iff (n : Nat) (lo hi : Byte) (bs : List Byte) :
    utf8From ⟨n + 1, lo, hi⟩ bs = true ↔
      ∃ x rest, bs = x :: rest ∧ (lo ≤ x ∧ x ≤ hi) ∧ utf8From ⟨n, 0x80, 0xBF⟩ rest = true := by
  cases bs with
  | nil => simp [utf8From]
  | cons x rest =>
    by_cases hx : lo ≤ x ∧ x ≤ hi
    · simp [utf8From, utf8Step, hx]
    · simp [utf8From, utf8Step, hx]

/-- Between two characters the first byte decides what is to come. -/
theorem validUtf8_cons {b : Byte} {e : Utf8Expect} (h : utf8Lead b = some e) (bs : List Byte) :
    validUtf8 (b :: bs) = utf8From e bs := by
  simp only [validUtf8, utf8From, utf8Step, Utf8Expect.boundary, h]

theorem validUtf8_cons_none {b : Byte} (h : utf8Lead b = none) (bs : List Byte) : validUtf8 (b :: bs) = false := by
  simp only [validUtf8, utf8From, utf8Step, Utf8Expect.boundary, h]

section Leads
variable {b : Byte}

theorem utf8Lead_one (h : b < 0x80) : utf8Lead b = some ⟨0, 0x80, 0xBF⟩ := if_pos h

theorem utf8Lead_two (hlo : 0xC2 ≤ b) (hhi : b < 0xE0) : utf8Lead b = some ⟨1, 0x80, 0xBF⟩ := by
  rw [utf8Lead, if_neg, if_neg, if_pos hhi] <;> bv_omega

/-- After 0xE0 no overlong form, after 0xED no surrogate. -/
theorem utf8Lead_three (hlo : 0xE0 ≤ b) (hhi : b < 0xF0) :
    utf8Lead b = some ⟨2, if b = 0xE0 then 0xA0 else 0x80, if b = 0xED then 0x9F else 0xBF⟩ := by
  rw [utf8Lead, if_neg, if_neg, if_neg]
  · by_cases h0 : b = 0xE0
    · subst h0; rfl
    · by_cases hD : b = 0xED
      · subst hD; rfl
      · simp only [h0, hD, hhi, if_false, if_true]
  all_goals bv_omega

/-- After 0xF0 no overlong form, after 0xF4 nothing above U+10FFFF. -/
theorem utf8Lead_four (hlo : 0xF0 ≤ b) (hhi : b < 0xF5) :
    utf8Lead b = some ⟨3, if b = 0xF0 then 0x90 else 0x80, if b = 0xF4 then 0x8F else 0xBF⟩ := by
  rw [utf8Lead, if_neg, if_neg, if_neg, if_neg, if_neg, if_neg]
  · by_cases h0 : b = 0xF0
    · subst h0; rfl
    · by_cases h4 : b = 0xF4
      · subst h4; rfl
      · simp only [h0, h4, show b < 0xF4 by bv_omega, if_false, if_true]
  all_goals bv_omega

theorem utf8Lead_none (h : (0x80 ≤ b ∧ b < 0xC2) ∨ 0xF5 ≤ b) : utf8Lead b = none := by
  rcases h with ⟨hlo, hhi⟩ | h
  · rw [utf8Lead, if_neg, if_pos hhi]; bv_omega
  · rw [utf8Lead, if_neg, if_neg, if_neg, if_neg, if_neg, if_neg, if_neg, if_neg, if_neg] <;> bv_omega

/-! What follows each first byte. -/

theorem validUtf8_one (h : b < 0x80) (bs : List Byte) : validUtf8 (b :: bs) = validUtf8 bs :=
  validUtf8_cons (utf8Lead_one h) bs

theorem validUtf8_two (hlo : 0xC2 ≤ b) (hhi : b < 0xE0) (bs : List Byte) :
    validUtf8 (b :: bs) = true ↔
      ∃ x rest, bs = x :: rest ∧ (0x80 ≤ x ∧ x ≤ 0xBF) ∧ validUtf8 rest = true := by
  rw [validUtf8_cons (utf8Lead_two hlo hhi), utf8From_succ_iff]
  rfl

theorem validUtf8_three (hlo : 0xE0 ≤ b) (hhi : b < 0xF0) (bs : List Byte) :
    validUtf8 (b :: bs) = true ↔
      ∃ x y rest, bs = x :: y :: rest ∧
        ((if b = 0xE0 then 0xA0 else 0x80) ≤ x ∧ x ≤ if b = 0xED then 0x9F else 0xBF) ∧
        (0x80 ≤ y ∧ y ≤ 0xBF) ∧ validUtf8 rest = true := by
  rw [validUtf8_cons (utf8Lead_three hlo hhi)]
  simp only [utf8From_succ_iff]
  constructor
  · rintro ⟨x, _, rfl, hx, y, rest, rfl, hy, hrest⟩
    exact ⟨x, y, rest, rfl, hx, hy, hrest⟩
  · rintro ⟨x, y, rest, rfl, hx, hy, hrest⟩
    exact ⟨x, _, rfl, hx, y, rest, rfl, hy, hrest⟩

theorem validUtf8_four (hlo : 0xF0 ≤ b) (hhi : b < 0xF5) (bs : List Byte) :
    validUtf8 (b :: bs) = true ↔
      ∃ x y z rest, bs = x :: y :: z :: rest ∧
        ((if b = 0xF0 then 0x90 else 0x80) ≤ x ∧ x ≤ if b = 0xF4 then 0x8F else 0xBF) ∧
        (0x80 ≤ y ∧ y ≤ 0xBF) ∧ (0x80 ≤ z ∧ z ≤ 0xBF) ∧ validUtf8 rest = true := by
  rw [validUtf8_cons (utf8Lead_four hlo hhi)]
  simp only [utf8From_succ_iff]
  constructor
  · rintro ⟨x, _, rfl, hx, y, _, rfl, hy, z, rest, rfl, hz, hrest⟩
    exact ⟨x, y, z, rest, rfl, hx, hy, hz, hrest⟩
  · rintro ⟨x, y, z, rest, rfl, hx, hy, hz, hrest⟩
    exact ⟨x, _, rfl, hx, y, _, rfl, hy, z, rest, rfl, hz, hrest⟩

end Leads

/-! ### The encoding of a character -/

/-- The bytes of a character. -/
def charBytes (c : Char) : List Byte := (String.utf8EncodeChar c).map UInt8.toBitVec

theorem charBytes_one {c : Char} (h : c.toNat ≤ 0x7F) : charBytes c = [.ofNat 8 c.toNat] :=
  congrArg (List.map UInt8.toBitVec) (if_pos h)

theorem charBytes_two {c : Char} (hlo : 0x7F < c.toNat) (hhi : c.toNat ≤ 0x7FF) :
    charBytes c = [.ofNat 8 (c.toNat / 64 % 32 + 0xC0), .ofNat 8 (c.toNat % 64 + 0x80)] :=
  congrArg (List.map UInt8.toBitVec) ((if_neg (Nat.not_le.2 hlo)).trans (if_pos hhi))

theorem charBytes_three {c : Char} (hlo : 0x7FF < c.toNat) (hhi : c.toNat ≤ 0xFFFF) :
    charBytes c = [.ofNat 8 (c.toNat / 4096 % 16 + 0xE0), .ofNat 8 (c.toNat / 64 % 64 + 0x80),
      .ofNat 8 (c.toNat % 64 + 0x80)] :=
  congrArg (List.map UInt8.toBitVec)
    ((if_neg (show ¬ c.toNat ≤ 0x7F by omega)).trans ((if_neg (Nat.not_le.2 hlo)).trans (if_pos hhi)))

theorem charBytes_four {c : Char} (hlo : 0xFFFF < c.toNat) :
    charBytes c = [.ofNat 8 (c.toNat / 262144 % 8 + 0xF0), .ofNat 8 (c.toNat / 4096 % 64 + 0x80),
      .ofNat 8 (c.toNat / 64 % 64 + 0x80), .ofNat 8 (c.toNat % 64 + 0x80)] :=
  congrArg (List.map UInt8.toBitVec)
    ((if_neg (show ¬ c.toNat ≤ 0x7F by omega)).trans
      ((if_neg (show ¬ c.toNat ≤ 0x7FF by omega)).trans (if_neg (Nat.not_le.2 hlo))))

/-- A character is no surrogate and at most U+10FFFF. -/
theorem char_range (c : Char) : c.toNat < 0xD800 ∨ (0xDFFF < c.toNat ∧ c.toNat < 0x110000) := c.valid

theorem continuation_range (n : Nat) :
    (0x80 : Byte) ≤ .ofNat 8 (n % 64 + 0x80) ∧ (BitVec.ofNat 8 (n % 64 + 0x80) : Byte) ≤ 0xBF := by
  bv_omega

/-- The recogniser passes over the bytes of a character. -/
theorem validUtf8_charBytes_append (c : Char) (bs : List Byte) : validUtf8 (charBytes c ++ bs) = validUtf8 bs := by
  have hrange := char_range c
  by_cases h1 : c.toNat ≤ 0x7F
  · rw [charBytes_one h1]
    exact validUtf8_one (by bv_omega) bs
  rw [Bool.eq_iff_iff]
  by_cases h2 : c.toNat ≤ 0x7FF
  · rw [charBytes_two (by omega) h2, List.cons_append, validUtf8_two (by bv_omega) (by bv_omega)]
    constructor
    · rintro ⟨x, rest, h, -, hrest⟩
      cases h; exact hrest
    · intro hbs
      exact ⟨_, _, rfl, continuation_range _, hbs⟩
  by_cases h3 : c.toNat ≤ 0xFFFF
  · rw [charBytes_three (by omega) h3, List.cons_append, validUtf8_three (by bv_omega) (by bv_omega)]
    constructor
    · rintro ⟨x, y, rest, h, -, -, hrest⟩
      cases h; exact hrest
    · intro hbs
      refine ⟨_, _, _, rfl, ⟨?_, ?_⟩, continuation_range _, hbs⟩ <;> split_ifs <;> bv_omega
  · rw [charBytes_four (by omega), List.cons_append, validUtf8_four (by bv_omega) (by bv_omega)]
    constructor
    · rintro ⟨x, y, z, rest, h, -, -, -, hrest⟩
      cases h; exact hrest
    · intro hbs
      refine ⟨_, _, _, _, rfl, ⟨?_, ?_⟩, continuation_range _, continuation_range _, hbs⟩ <;> split_ifs <;> bv_omega

/-- A scalar value is that of a character. -/
theorem exists_char {v : Nat} (h : v < 0xD800 ∨ (0xDFFF < v ∧ v < 0x110000)) : ∃ c : Char, c.toNat = v :=
  ⟨Char.ofNat v, (Char.toNat_ofNat v).trans (if_pos h)⟩

/-- What the recogniser accepts begins with the bytes of a character. -/
theorem exists_charBytes_of_validUtf8 {b : Byte} {bs : List Byte} (h : validUtf8 (b :: bs) = true) :
    ∃ c rest, b :: bs = charBytes c ++ rest ∧ validUtf8 rest = true := by
  rcases (by bv_omega : b < 0x80 ∨ ((0x80 ≤ b ∧ b < 0xC2) ∨ 0xF5 ≤ b) ∨ (0xC2 ≤ b ∧ b < 0xE0) ∨
      (0xE0 ≤ b ∧ b < 0xF0) ∨ (0xF0 ≤ b ∧ b < 0xF5)) with h1 | hnone | ⟨hlo, hhi⟩ | ⟨hlo, hhi⟩ | ⟨hlo, hhi⟩
  · obtain ⟨c, hc⟩ := exists_char (v := b.toNat) (by bv_omega)
    refine ⟨c, bs, ?_, by rwa [validUtf8_one h1] at h⟩
    rw [charBytes_one (by bv_omega), hc, BitVec.ofNat_toNat, BitVec.setWidth_eq]
    rfl
  · rw [validUtf8_cons_none (utf8Lead_none hnone)] at h
    cases h
  · obtain ⟨x, rest, rfl, hx, hrest⟩ := (validUtf8_two hlo hhi bs).1 h
    obtain ⟨c, hc⟩ := exists_char (v := (b.toNat - 0xC0) * 64 + (x.toNat - 0x80)) (by bv_omega)
    refine ⟨c, rest, ?_, hrest⟩
    rw [charBytes_two (by bv_omega) (by bv_omega), hc]
    refine congrArg₂ List.cons ?_ (congrArg₂ List.cons ?_ rfl) <;> bv_omega
  · obtain ⟨x, y, rest, rfl, ⟨hxlo, hxhi⟩, hy, hrest⟩ := (validUtf8_three hlo hhi bs).1 h
    have hx : 0x80 ≤ x ∧ x ≤ 0xBF ∧ (b = 0xE0 → 0xA0 ≤ x) ∧ (b = 0xED → x ≤ 0x9F) := by
      split_ifs at hxlo hxhi <;> bv_omega
    obtain ⟨c, hc⟩ := exists_char
      (v := (b.toNat - 0xE0) * 4096 + (x.toNat - 0x80) * 64 + (y.toNat - 0x80)) (by bv_omega)
    refine ⟨c, rest, ?_, hrest⟩
    rw [charBytes_three (by bv_omega) (by bv_omega), hc]
    refine congrArg₂ List.cons ?_ (congrArg₂ List.cons ?_ (congrArg₂ List.cons ?_ rfl)) <;> bv_omega
  · obtain ⟨x, y, z, rest, rfl, ⟨hxlo, hxhi⟩, hy, hz, hrest⟩ := (validUtf8_four hlo hhi bs).1 h
    have hx : 0x80 ≤ x ∧ x ≤ 0xBF ∧ (b = 0xF0 → 0x90 ≤ x) ∧ (b = 0xF4 → x ≤ 0x8F) := by
      split_ifs at hxlo hxhi <;> bv_omega
    obtain ⟨c, hc⟩ := exists_char
      (v := (b.toNat - 0xF0) * 262144 + (x.toNat - 0x80) * 4096 + (y.toNat - 0x80) * 64 + (z.toNat - 0x80))
      (by bv_omega)
    refine ⟨c, rest, ?_, hrest⟩
    rw [charBytes_four (by bv_omega), hc]
    refine congrArg₂ List.cons ?_ (congrArg₂ List.cons ?_ (congrArg₂ List.cons ?_ (congrArg₂ List.cons ?_ rfl))) <;>
      bv_omega

/-! ### Texts -/

theorem length_charBytes_pos (c : Char) : 0 < (charBytes c).length := by
  rw [charBytes, List.length_map, String.length_utf8EncodeChar]
  exact c.utf8Size_pos

theorem validUtf8_flatMap (cs : List Char) : validUtf8 (cs.flatMap charBytes) = true := by
  induction cs with
  | nil => rfl
  | cons c cs ih => rw [List.flatMap_cons, validUtf8_charBytes_append, ih]

/-- Accepted bytes are those of characters: one character after another, until none is left. -/
theorem exists_chars_of_validUtf8 (bs : List Byte) (h : validUtf8 bs = true) :
    ∃ cs : List Char, bs = cs.flatMap charBytes := by
  match bs, h with
  | [], _ => exact ⟨[], rfl⟩
  | b :: bs', h =>
    obtain ⟨c, rest, hbytes, hrest⟩ := exists_charBytes_of_validUtf8 h
    obtain ⟨cs, hcs⟩ := exists_chars_of_validUtf8 rest hrest
    exact ⟨c :: cs, by rw [List.flatMap_cons, ← hcs, hbytes]⟩
termination_by bs.length
decreasing_by
  have hpos := length_charBytes_pos c
  rw [hbytes, List.length_append]
  omega

/-- Settles O51: the recogniser passes over the bytes of each character, and what it accepts begins with such bytes. -/
theorem validTextIsTheUtf8OfCharacters : Obligations.ValidTextIsTheUtf8OfCharacters := by
  intro bs
  constructor
  · exact exists_chars_of_validUtf8 bs
  · rintro ⟨cs, rfl⟩
    exact validUtf8_flatMap cs

end Sys2Proof.Proofs
